-- ==== Sys2Proof/Word.lean ====
section
/-! DEFINITION. The fixed widths of the machine: one abbreviation per kind of bit vector
(00_scope.md R5, R6). -/

namespace Sys2Proof

/-- A Value: 12 bits, two's complement; the width of ACC and of a data memory cell (R5 `DATA_W`, R14, R28). -/
abbrev Value := BitVec 12

/-- The 12-bit operand field X of an instruction word (R51), read as a data address or as an
instruction index (R5 `ADDR_W`, R53). -/
abbrev Operand := BitVec 12

/-- An address of the data address space, 0x000 to 0xFFF (R35). -/
abbrev DataAddr := BitVec 12

/-- An instruction index: the 13 bits of PC and of PROG_LEN (R5 `PC_W`, R17, R26). -/
abbrev Index := BitVec 13

/-- One instruction word (R5 `INSTR_W`, R51). -/
abbrev InstrWord := BitVec 16

end Sys2Proof
end

