-- ==== Sys2Proof/Syntax.lean ====
section
/-! DEFINITION. The instructions: one constructor per row of spec/opcode_table.json, the nine results
of the decoder (30_encoding.md R54, R55). -/

namespace Sys2Proof

/-- The nine results of decoding a word (R55). The operand X is a data address in the first four, an
instruction index in the three jumps (R53). -/
inductive Instr where
  /-- LOAD X: ACC gets cell X (R88). -/
  | load (x : Operand)
  /-- STORE X: cell X gets ACC (R89). -/
  | store (x : Operand)
  /-- ADD X: ACC gets ACC plus cell X, wrapped (R91). -/
  | add (x : Operand)
  /-- SUB X: ACC gets ACC minus cell X, wrapped (R92). -/
  | sub (x : Operand)
  /-- JUMP X: PC gets index X (R95). -/
  | jump (x : Operand)
  /-- JGE X: jump if ACC is not negative (R96). -/
  | jge (x : Operand)
  /-- JNE X: jump if ACC is not zero (R97). -/
  | jne (x : Operand)
  /-- STOP: halt; its operand bits mean nothing and are not kept (R57, R98). -/
  | stop
  /-- ILLEGAL: the table's ninth row, a word with `w[15] = 1` (R56, R121).
  DESIGN CHOICE (log entry 6), safe: the constructor keeps the whole word, which R73 prints. -/
  | illegal (w : InstrWord)
  deriving DecidableEq, Repr

/-- The row of spec/opcode_table.json an instruction belongs to, by its mnemonic. -/
def Instr.mnemonic : Instr → String
  | .load _ => "LOAD"
  | .store _ => "STORE"
  | .add _ => "ADD"
  | .sub _ => "SUB"
  | .jump _ => "JUMP"
  | .jge _ => "JGE"
  | .jne _ => "JNE"
  | .stop => "STOP"
  | .illegal _ => "ILLEGAL"

end Sys2Proof
end

