-- ==== Sys2Proof/WellFormed.lean ====
section
/-! DEFINITION. Which terms of `Instr` stand for a word. Every 12-bit operand is encodable
(30_encoding.md R53), so the one check is that an illegal word is in the illegal space (R56). -/

namespace Sys2Proof

/-- An instruction that some word decodes to: for the eight instructions always (R53, R57), for
ILLEGAL when the kept word has `w[15] = 1` (R56). -/
def Instr.wellFormed : Instr → Bool
  | .load _ => true
  | .store _ => true
  | .add _ => true
  | .sub _ => true
  | .jump _ => true
  | .jge _ => true
  | .jne _ => true
  | .stop => true
  | .illegal w => w.getLsbD 15

end Sys2Proof
end

