-- ==== Sys2Proof/Decode.lean ====
section
/-! DEFINITION. The opcode table, the decoder and the encoder (30_encoding.md R51 to R59). -/

namespace Sys2Proof

/-- The opcode field `op = w[15:12]` (R52). -/
def opField (w : InstrWord) : BitVec 4 := w.extractLsb' 12 4

/-- The operand field `X = w[11:0]` (R52, R53). -/
def xField (w : InstrWord) : Operand := w.extractLsb' 0 12

/-- The decoder, total on 16-bit words (R55); it reads no state (R52, R58). Every opcode from 0x8
on is illegal (R56); every word 0x7000 to 0x7FFF is STOP (R57). -/
def decode (w : InstrWord) : Instr :=
  match (opField w).toNat with
  | 0 => .load (xField w)
  | 1 => .store (xField w)
  | 2 => .add (xField w)
  | 3 => .sub (xField w)
  | 4 => .jump (xField w)
  | 5 => .jge (xField w)
  | 6 => .jne (xField w)
  | 7 => .stop
  | _ => .illegal w

/-- `{op, X}`, the one instruction format (R51). -/
def packWord (op : BitVec 4) (x : Operand) : InstrWord := op ++ x

/-- The encoder (R59): `Encode(op, X) = {opnum(op), X}` and `Encode(STOP) = 0x7000`. The spec's
encoder makes no illegal word; here the kept word of ILLEGAL is its own encoding (log entry 6). -/
def encode : Instr → InstrWord
  | .load x => packWord 0x0#4 x
  | .store x => packWord 0x1#4 x
  | .add x => packWord 0x2#4 x
  | .sub x => packWord 0x3#4 x
  | .jump x => packWord 0x4#4 x
  | .jge x => packWord 0x5#4 x
  | .jne x => packWord 0x6#4 x
  | .stop => 0x7000#16
  | .illegal w => w

/-- One row of the opcode map: the bits `mask` selects must equal `pattern` (R54). -/
structure OpcodeRow where
  mnemonic : String
  pattern : InstrWord
  mask : InstrWord
  deriving DecidableEq, Repr

/-- The opcode map, row for row (R54; spec/opcode_table.json). -/
def opcodeTable : List OpcodeRow :=
  [ ⟨"LOAD", 0x0000#16, 0xF000#16⟩,
    ⟨"STORE", 0x1000#16, 0xF000#16⟩,
    ⟨"ADD", 0x2000#16, 0xF000#16⟩,
    ⟨"SUB", 0x3000#16, 0xF000#16⟩,
    ⟨"JUMP", 0x4000#16, 0xF000#16⟩,
    ⟨"JGE", 0x5000#16, 0xF000#16⟩,
    ⟨"JNE", 0x6000#16, 0xF000#16⟩,
    ⟨"STOP", 0x7000#16, 0xF000#16⟩,
    ⟨"ILLEGAL", 0x8000#16, 0x8000#16⟩ ]

/-- A word fits a row of the opcode map (R54: match / mask). -/
def OpcodeRow.fits (r : OpcodeRow) (w : InstrWord) : Bool := w &&& r.mask == r.pattern

/-- Why a string of bits is no instruction word. -/
inductive DecodeError where
  /-- There are more bits than the one 16-bit word every instruction is (R51, R58). Safe. -/
  | longerThanOneWord
  deriving DecidableEq, Repr

/-- Decoding of a value of `nbits` bits. Fewer than 16 bits stand for a word whose higher bits are
0; more than 16 are refused by name, for every instruction is one word (R51, R58; log entry 7). -/
def decodeBits (nbits w : Nat) : Except DecodeError Instr :=
  if nbits ≤ 16 then .ok (decode (BitVec.ofNat 16 (w % 2 ^ nbits))) else .error .longerThanOneWord

/-- What the decoder reads from the `nbits` bits `w`, bit 0 the least significant bit of the one
word (R6, R51); none where it refuses. -/
def decodeTableWord (nbits w : Nat) : Option Instr :=
  match decodeBits nbits w with
  | .ok i => some i
  | .error _ => none

end Sys2Proof
end

