-- ==== Sys2Proof/Config.lean ====
section
/-! DEFINITION. The implementation parameters of 00_scope.md R5, at the values this hardware takes,
and the one free value of the model: what IMEM holds where nothing has been pushed since reset. -/

namespace Sys2Proof.Config

/-- R5 `DATA_W`: width of ACC and of a data memory cell. -/
abbrev dataW : Nat := 12

/-- R5 `ADDR_W`: width of a data address and of the operand field. -/
abbrev addrW : Nat := 12

/-- R5 `DMEM_DEPTH`: number of data memory cells. -/
abbrev dmemDepth : Nat := 4096

/-- R5 `INSTR_W`: width of an instruction word. -/
abbrev instrW : Nat := 16

/-- R5 `OPC_W`: width of the opcode field. -/
abbrev opcW : Nat := 4

/-- R5 `IMEM_DEPTH`: capacity of the instruction store, in words. -/
abbrev imemDepth : Nat := 4096

/-- R5 `PC_W`: width of PC and of PROG_LEN. -/
abbrev pcW : Nat := 13

/-- R5 `FAULT_W`: width of the FAULT cause register. -/
abbrev faultW : Nat := 2

/-- FREE VALUE (log entry 4). The word at an index of IMEM that no push has written since reset:
"unspecified (any value; unreachable by fetch)" (10_state.md R27, R30; U6). The first argument is
the State field `imemDraw`, which every reset edge advances, so that no two resets are
known to leave the same contents. It has no body: nothing can be proved of its value. -/
opaque imemUnspecified : Nat → BitVec 12 → BitVec 16

end Sys2Proof.Config
end

