-- ==== Sys2Proof/Machine/State.lean ====
section
/-! DEFINITION. The machine's state as plain data (10_state.md R13; 48_host_interface.md R99), the
state after reset (R30, R135), and the reasons a step can stop. -/

namespace Sys2Proof.Machine

/-- The codes of the FAULT register that are ever written (R22, R119). DESIGN CHOICE (log entry 9),
safe: code 3, "reserved (never written)", has no constructor. -/
inductive FaultCause where
  /-- 0, NONE: no fault; written by STOP (R98). -/
  | noFault
  /-- 1, INVALID_PC: the range check of a step failed (R120). -/
  | invalidPc
  /-- 2, ILLEGAL_OPCODE: the fetched word is illegal (R121). -/
  | illegalOpcode
  deriving DecidableEq, Repr

/-- Data memory: (address, Value) pairs, addresses strictly rising and below 4096, no zero Value; an
unlisted address reads 0x000, "zero-initialized" (R28, R30). The form is `Memory.wf` (Ops.lean). -/
abbrev Memory := List (Nat × Value)

/-- Instruction store: (index, word) pairs, indices strictly rising, one for each word pushed since
reset; an unlisted index holds an unspecified word (R27, R30; log entry 4). -/
abbrev InstrStore := List (Nat × InstrWord)

/-- All the state the spec gives the machine. The first nine fields are the vector of R13; the next
three are the output pulse registers of R99 and R100 (log entry 3); `imemDraw` is the model's own. -/
structure State where
  /-- PC: the index of the next instruction, not a memory address (R17). -/
  pc : Index
  /-- ACC: the accumulator (R14). -/
  acc : Value
  /-- HALTED (R21). -/
  halted : Bool
  /-- FAULT (R22). -/
  fault : FaultCause
  /-- STARTED: a step has been performed since reset (R24). -/
  started : Bool
  /-- RUNMODE: a run to completion is in progress (R25). -/
  runmode : Bool
  /-- PROG_LEN: how many words have been pushed (R26). -/
  progLen : Index
  /-- IMEM: the instruction store (R27). -/
  imem : InstrStore
  /-- DMEM: the data memory (R28). -/
  dmem : Memory
  /-- The output `stepped` (R111). -/
  stepped : Bool
  /-- The output `cmd_err` (R104). -/
  cmdErr : Bool
  /-- The output `load_err` (R109). -/
  loadErr : Bool
  /-- The MODEL'S OWN counter: which unspecified contents a reset left in IMEM (log entry 4). -/
  imemDraw : Nat
  deriving DecidableEq, Repr

/-- The machine right after reset (R30, R135). `imemDraw` is 0 by DESIGN CHOICE (log entry 4). -/
def State.reset : State :=
  { pc := 0#13, acc := 0x000#12, halted := false, fault := .noFault, started := false,
    runmode := false, progLen := 0#13, imem := [], dmem := [],
    stepped := false, cmdErr := false, loadErr := false, imemDraw := 0 }

/-- Reasons to stop without a next state: there are none. Both faults of the spec, INVALID_PC and
ILLEGAL_OPCODE, are next states with HALTED = 1 (R10, R119), and a step command while halted is a next
state with `cmd_err` (R104). The type has no constructor, so no step can fault (log entry 10). -/
inductive Fault where
  deriving DecidableEq, Repr

/-- Reasons to give an instruction no meaning. -/
inductive Refusal where
  /-- An instruction that has no meaning yet, by its mnemonic. Raised by no arm of this model: every
  row of the opcode table has its meaning. Safe. -/
  | notModelled (mnemonic : String)
  deriving DecidableEq, Repr

/-- The outcome of a step of this machine. -/
abbrev Result := Host.Outcome State Fault Refusal

end Sys2Proof.Machine
end

