-- ==== Sys2Proof/Machine/Ops.lean ====
section
/-! DEFINITION. The named operations over registers and memories: number readings, the two sparse
memories, the state updates, raising a fault (00_scope.md R7 to R10; 20_memory.md). -/

namespace Sys2Proof.Machine

/-! ### Extension and wrapping (R6, R7) -/

/-- `wrap12(n)`: reduce modulo 4096 and reinterpret as signed (R7). -/
def wrap12 (n : Int) : Value := BitVec.ofInt 12 n

/-- `zext_13(X)` (R7). -/
def zext13 (x : Operand) : Index := x.setWidth 13

/-! ### Sparse storage: a list of (key, content) pairs -/

/-- The content listed at a key. -/
def Cells.lookup {α : Type} (a : Nat) : List (Nat × α) → Option α
  | [] => none
  | (b, v) :: m => if a = b then some v else Cells.lookup a m

/-- Lists a content at a key, in the place a rising list has for it; a content already listed there
is replaced. -/
def Cells.insert {α : Type} (a : Nat) (v : α) : List (Nat × α) → List (Nat × α)
  | [] => [(a, v)]
  | (b, u) :: m =>
    if a < b then (a, v) :: (b, u) :: m
    else if a = b then (a, v) :: m
    else (b, u) :: Cells.insert a v m

/-- Takes a key off the list. -/
def Cells.remove {α : Type} (a : Nat) (m : List (Nat × α)) : List (Nat × α) :=
  m.filter fun c => c.1 != a

/-! ### Data memory (R9, R28, R35 to R41) -/

/-- What an unlisted data address reads as: "zero-initialized" (R28, R30). -/
def Memory.unlisted : Value := 0x000#12

/-- The content of one cell. Every address names a cell, so a read cannot fail (R9, R35). -/
def Memory.read (m : Memory) (a : DataAddr) : Value := (Cells.lookup a.toNat m).getD Memory.unlisted

/-- Writes one cell and no other (R41), keeping the canonical form: a cell that gets what an unlisted
address reads as is taken off the list. -/
def Memory.write (m : Memory) (a : DataAddr) (v : Value) : Memory :=
  if v = Memory.unlisted then Cells.remove a.toNat m else Cells.insert a.toNat v m

/-- The canonical form of data memory: strictly rising addresses inside the 4096 cells, none listed
with what an unlisted address reads as. -/
abbrev Memory.wf (m : Memory) : Prop :=
  (m.map Prod.fst).Pairwise (· < ·) ∧ ∀ c ∈ m, c.1 < Config.dmemDepth ∧ c.2 ≠ Memory.unlisted

/-- `MemRead(addr, 1)` (R9). -/
def memRead (a : DataAddr) (s : State) : Value := Memory.read s.dmem a

/-- `MemWrite(addr, 1, v)` (R9). -/
def memWrite (a : DataAddr) (v : Value) (s : State) : State := { s with dmem := Memory.write s.dmem a v }

/-! ### Instruction store (R27, R38, R49, R77) -/

/-- The index of IMEM a fetch addresses: `imem_addr = PC[11:0]` (R49, R77). -/
def imemAddr (s : State) : BitVec 12 := s.pc.extractLsb' 0 12

/-- The word IMEM holds at an index: the word pushed there, or the free value of an index nothing has
been pushed to since reset (R27, R30; log entry 4). -/
def imemRead (a : BitVec 12) (s : State) : InstrWord :=
  (Cells.lookup a.toNat s.imem).getD (Config.imemUnspecified s.imemDraw a)

/-- `IFetch(PC)`: one whole word, no side effect, cannot fail (R9, R77). -/
def ifetch (s : State) : InstrWord := imemRead (imemAddr s) s

/-- The range check before a fetch: `unsigned(PC) < unsigned(PROG_LEN)` (R76). -/
def pcInProgram (s : State) : Bool := decide (s.pc.toNat < s.progLen.toNat)

/-! ### Register updates -/

/-- `ACC <- v`. -/
def State.setAcc (v : Value) (s : State) : State := { s with acc := v }

/-- `pc <- i`. -/
def State.setPc (i : Index) (s : State) : State := { s with pc := i }

/-- `pc <- PC + 1`, on 13 bits (R18, R81). -/
def State.incPc (s : State) : State := { s with pc := s.pc + 1#13 }

/-- `HALTED <- 1; FAULT <- cause`: the one way to halt, by STOP (cause NONE, R98) and by a fault. -/
def State.haltWith (cause : FaultCause) (s : State) : State := { s with halted := true, fault := cause }

/-- `STARTED <- 1` (R85). -/
def State.markStarted (s : State) : State := { s with started := true }

/-- `raise Fault(cause)` (R10): HALTED and FAULT are written and nothing else is. It is no trap: no
state is saved and control goes nowhere (R125), and there is no return from it; the one way out is
reset (R126). STARTED and RUNMODE are written by the step and the edge around it (R85, R103). -/
def raiseFault (cause : FaultCause) (s : State) : State := s.haltWith cause

/-! ### Status values derived from the state -/

/-- The 2-bit code of a fault cause (R22). -/
def FaultCause.code : FaultCause → BitVec 2
  | .noFault => 0#2
  | .invalidPc => 1#2
  | .illegalOpcode => 2#2

/-- The values of PHASE that occur (R23). -/
inductive Phase where
  | ready
  | running
  | halted
  deriving DecidableEq, Repr

/-- The 2-bit code of a phase (R23). -/
def Phase.code : Phase → BitVec 2
  | .ready => 0#2
  | .running => 1#2
  | .halted => 2#2

/-- PHASE, computed from HALTED and STARTED and not stored (R23). -/
def phase (s : State) : Phase :=
  if s.halted then .halted else if s.started then .running else .ready

/-! ### Outcomes in sequence -/

/-- Goes on from a next state; a fault or a refusal stays what it is. -/
def thenDo (r : Result) (k : State → Result) : Result :=
  match r with
  | .next s => k s
  | .fault f => .fault f
  | .refused f => .refused f

end Sys2Proof.Machine
end

