-- ==== Sys2Proof/Machine/Operands.lean ====
section
/-! DEFINITION. The one operand form (30_encoding.md R53): X used as it stands, a data address or an
instruction index. -/

namespace Sys2Proof.Machine

/-- The effective address of LOAD, STORE, ADD and SUB: X itself, with no base, index, scaling or
extension (R36, R53). -/
def dataAddress (x : Operand) : DataAddr := x

/-- The operand value of LOAD, ADD and SUB: the cell X (R36). -/
def operandValue (x : Operand) (s : State) : Value := memRead (dataAddress x) s

/-- The target of JUMP, JGE and JNE: `zext_13(X)`, absolute in the instruction index space, never
added to PC (R53, R94). -/
def jumpTarget (x : Operand) : Index := zext13 x

/-- The operand field an instruction uses; none for STOP and ILLEGAL, which use none (R53, R57). -/
def operandOf : Instr → Option Operand
  | .load x => some x
  | .store x => some x
  | .add x => some x
  | .sub x => some x
  | .jump x => some x
  | .jge x => some x
  | .jne x => some x
  | .stop => none
  | .illegal _ => none

end Sys2Proof.Machine
end

