-- ==== Sys2Proof/Machine/Flags.lean ====
section
/-! DEFINITION. The condition predicates and the ALU. The core stores no flag: no carry, overflow,
zero or negative bit exists (10_state.md R20); what JGE and JNE test is computed from ACC. -/

namespace Sys2Proof.Machine

/-- `signed(ACC) >= 0`, the test JGE makes (R20, R96). -/
def accNonNegative (s : State) : Bool := decide (0 ≤ s.acc.toInt)

/-- `ACC != 0x000`, the test JNE makes (R20, R97). -/
def accNonZero (s : State) : Bool := s.acc != 0x000#12

/-- `GE = (ACC[11] == 0)`, the branch condition unit's output (R20, R80). -/
def condGe (acc : Value) : Bool := acc.getLsbD 11 == false

/-- `NZ = (ACC != 0x000)`, the branch condition unit's output (R20, R80). -/
def condNz (acc : Value) : Bool := acc != 0x000#12

/-- `wrap12(signed(a) + signed(b))` (R90). -/
def addWrap (a b : Value) : Value := wrap12 (a.toInt + b.toInt)

/-- `wrap12(signed(a) - signed(b))` (R90). -/
def subWrap (a b : Value) : Value := wrap12 (a.toInt - b.toInt)

end Sys2Proof.Machine
end

