-- ==== Sys2Proof/Machine/Arithmetic.lean ====
section
/-! DEFINITION. The arithmetic instructions ADD and SUB (42_arithmetic.md). -/

namespace Sys2Proof.Machine

/-- ADD X (R91): `ACC <- wrap12(signed(ACC) + signed(MemRead(X, 1))); pc <- PC + 1`. -/
def execAdd (x : Operand) (s : State) : Result := .next (s.setAcc (addWrap s.acc (operandValue x s))).incPc

/-- SUB X (R92): `ACC <- wrap12(signed(ACC) - signed(MemRead(X, 1))); pc <- PC + 1`. -/
def execSub (x : Operand) (s : State) : Result := .next (s.setAcc (subWrap s.acc (operandValue x s))).incPc

end Sys2Proof.Machine
end

