-- ==== Sys2Proof/Machine/ControlTransfer.lean ====
section
/-! DEFINITION. The control transfer instructions JUMP, JGE and JNE (43_control_transfer.md). -/

namespace Sys2Proof.Machine

/-- A jump on a condition: to index X when it holds, else to the next instruction (R81, R94). The
jump completes whatever X is; the range of PC is checked by the next step (R83, R94). -/
def branchIf (taken : Bool) (x : Operand) (s : State) : State :=
  if taken then s.setPc (jumpTarget x) else s.incPc

/-- JUMP X (R95): `pc <- zext_13(X)`. -/
def execJump (x : Operand) (s : State) : Result := .next (branchIf true x s)

/-- JGE X (R96): the jump is taken when `signed(ACC) >= 0`. -/
def execJge (x : Operand) (s : State) : Result := .next (branchIf (accNonNegative s) x s)

/-- JNE X (R97): the jump is taken when `ACC != 0x000`. -/
def execJne (x : Operand) (s : State) : Result := .next (branchIf (accNonZero s) x s)

end Sys2Proof.Machine
end

