-- ==== Sys2Proof/Machine/DataTransfer.lean ====
section
/-! DEFINITION. The data transfer instructions LOAD and STORE (41_data_transfer.md). -/

namespace Sys2Proof.Machine

/-- LOAD X (R88): `ACC <- MemRead(X, 1); pc <- PC + 1`. -/
def execLoad (x : Operand) (s : State) : Result := .next (s.setAcc (operandValue x s)).incPc

/-- STORE X (R89): `MemWrite(X, 1, ACC); pc <- PC + 1`. -/
def execStore (x : Operand) (s : State) : Result := .next (memWrite (dataAddress x) s.acc s).incPc

end Sys2Proof.Machine
end

