-- ==== Sys2Proof/Machine/System.lean ====
section
/-! DEFINITION. STOP (44_stop.md) and the illegal word (60_exceptions.md R121). -/

namespace Sys2Proof.Machine

/-- STOP (R98): `HALTED <- 1; FAULT <- NONE`; PC keeps the index of the STOP. -/
def execStop (s : State) : Result := .next (s.haltWith .noFault)

/-- An illegal word (R56, R121): `raise Fault(ILLEGAL_OPCODE)`. PC keeps the index of the word, no
data access is made, and the word itself is recorded nowhere. -/
def execIllegal (s : State) : Result := .next (raiseFault .illegalOpcode s)

end Sys2Proof.Machine
end

