-- ==== Sys2Proof/Machine/Dispatch.lean ====
section
/-! DEFINITION. One arm per constructor of Instr: the case of the step (40_execution_cycle.md R75, R78). -/

namespace Sys2Proof.Machine

def exec (i : Instr) (s : State) : Host.Outcome State Fault Refusal :=
  match i with
  | .load x => Sys2Proof.Machine.execLoad x s
  | .store x => Sys2Proof.Machine.execStore x s
  | .add x => Sys2Proof.Machine.execAdd x s
  | .sub x => Sys2Proof.Machine.execSub x s
  | .jump x => Sys2Proof.Machine.execJump x s
  | .jge x => Sys2Proof.Machine.execJge x s
  | .jne x => Sys2Proof.Machine.execJne x s
  | .stop => Sys2Proof.Machine.execStop s
  | .illegal _ => Sys2Proof.Machine.execIllegal s

end Sys2Proof.Machine
end

