-- ==== Sys2Proof/Machine/Cycle.lean ====
section
/-! DEFINITION. One step of the core: range check, fetch, decode, execute (40_execution_cycle.md R75 to
R78). When a step is performed is HostInterface.lean's. -/

namespace Sys2Proof.Machine

/-- What a step at `s` decodes: nothing when the range check fails, for then nothing is fetched
(R76); else the instruction of the word at PC (R77, R78). -/
def fetched (s : State) : Option Instr := if pcInProgram s then some (decode (ifetch s)) else none

/-- `Step()` (R75), from a state with HALTED = 0: STARTED is set, whatever the step does (R85); the
range check comes first (R76, R123); then the fetched word is executed. Fetch and range check read
the state before the step (R8). -/
def performStep (s : State) : Result :=
  match fetched s with
  | none => .next (raiseFault .invalidPc s.markStarted)
  | some i => exec i s.markStarted

end Sys2Proof.Machine
end

