-- ==== Sys2Proof/Machine/HostInterface.lean ====
section
/-! DEFINITION. The ports and the rising edge: when a step is performed, run mode, loading, observing,
reset, and the source's operations in terms of them (48_host_interface.md R99 to R118;
70_reset_and_hazards.md R134, R135, R137). -/

namespace Sys2Proof.Machine

/-! ### Ports (R99) -/

/-- The input ports at one rising edge of `clk` (R99). A port not named is 0. -/
structure Inputs where
  rst : Bool := false
  stepReq : Bool := false
  runReq : Bool := false
  imemPush : Bool := false
  imemWdata : InstrWord := 0#16
  dmemLoadWe : Bool := false
  dmemLoadAddr : DataAddr := 0#12
  dmemLoadData : Value := 0#12
  dbgAddr : DataAddr := 0#12
  deriving DecidableEq, Repr

/-- No input port is 1. -/
def Inputs.idle : Inputs := {}

/-- `step_req` alone: the source's `step()` (R115). -/
def Inputs.step : Inputs := { stepReq := true }

/-- `run_req` alone: the source's `run()` (R115). -/
def Inputs.run : Inputs := { runReq := true }

/-- `rst` alone (R134). -/
def Inputs.reset : Inputs := { rst := true }

/-- A push of one instruction word (R107). -/
def Inputs.push (w : InstrWord) : Inputs := { imemPush := true, imemWdata := w }

/-- A write of one data cell (R108). -/
def Inputs.dataLoad (a : DataAddr) (v : Value) : Inputs :=
  { dmemLoadWe := true, dmemLoadAddr := a, dmemLoadData := v }

/-- The output ports that show registers (R99, R112). -/
structure Outputs where
  pc : BitVec 13
  acc : BitVec 12
  halted : Bool
  fault : BitVec 2
  phase : BitVec 2
  running : Bool
  progLen : BitVec 13
  stepped : Bool
  cmdErr : Bool
  loadErr : Bool
  deriving DecidableEq, Repr

/-- What the registered outputs show after an edge that left `s` (R111, R112). -/
def outputs (s : State) : Outputs :=
  { pc := s.pc, acc := s.acc, halted := s.halted, fault := s.fault.code, phase := (phase s).code,
    running := s.runmode, progLen := s.progLen, stepped := s.stepped, cmdErr := s.cmdErr,
    loadErr := s.loadErr }

/-- The output `dbg_data = DMEM[dbg_addr]`, combinational, with no effect on the state (R113). -/
def dbgData (inp : Inputs) (s : State) : Value := memRead inp.dbgAddr s

/-! ### The clock edge (R100) -/

/-- `cmd = step_req or run_req`. -/
def Inputs.cmd (inp : Inputs) : Bool := inp.stepReq || inp.runReq

/-- `ld = imem_push or dmem_load_we`. -/
def Inputs.ld (inp : Inputs) : Bool := inp.imemPush || inp.dmemLoadWe

/-- `go`: whether an edge performs a step (R102). -/
def stepsAt (inp : Inputs) (s : State) : Bool := !inp.rst && (inp.cmd || s.runmode) && !s.halted

/-- The reset edge (R135): every element at its reset value, from any state and in any phase (R134).
IMEM's contents become unspecified anew: the draw counter goes on (log entry 4). -/
def resetEdge (s : State) : State := { State.reset with imemDraw := s.imemDraw + 1 }

/-- An accepted push with room (R107): the word goes to `IMEM[PROG_LEN[11:0]]` and PROG_LEN grows. -/
def pushWord (w : InstrWord) (s : State) : State :=
  { s with
    imem := Cells.insert (s.progLen.extractLsb' 0 12).toNat w s.imem
    progLen := s.progLen + 1#13 }

/-- The push of an accepted load: nothing is written when the store is full (R107). -/
def acceptPush (inp : Inputs) (s : State) : State :=
  if inp.imemPush && decide (s.progLen.toNat < Config.imemDepth) then pushWord inp.imemWdata s else s

/-- The data write of an accepted load (R108). -/
def acceptData (inp : Inputs) (s : State) : State :=
  if inp.dmemLoadWe then memWrite inp.dmemLoadAddr inp.dmemLoadData s else s

/-- Sets the three output pulse registers (R100). -/
def State.setPulses (stepped cmdErr loadErr : Bool) (s : State) : State :=
  { s with stepped := stepped, cmdErr := cmdErr, loadErr := loadErr }

/-- `RUNMODE <- b`. -/
def State.setRunmode (b : Bool) (s : State) : State := { s with runmode := b }

/-- What an edge adds to the step it performs (R100): run mode goes on or starts unless the step
halted (R103); a load at the same edge is refused (R110). -/
def finishStep (inp : Inputs) (before after : State) : State :=
  (after.setRunmode ((before.runmode || inp.runReq) && !after.halted)).setPulses true false inp.ld

/-- An edge that performs no step and no reset (R100): a command finds the core halted (R104); a load
is accepted in READY only (R106), and even there a push into a full store is refused (R109). -/
def idleEdge (inp : Inputs) (s : State) : State :=
  if inp.ld then
    if phase s = .ready then
      (acceptData inp (acceptPush inp s)).setPulses false (inp.cmd && s.halted)
        (inp.imemPush && decide (s.progLen.toNat = Config.imemDepth))
    else s.setPulses false (inp.cmd && s.halted) true
  else s.setPulses false (inp.cmd && s.halted) false

/-- `OnEdge()` (R100): reset before everything, a step before a load (R123). -/
def edge (inp : Inputs) (s : State) : Result :=
  if inp.rst then .next (resetEdge s)
  else if stepsAt inp s then thenDo (performStep s) fun t => .next (finishStep inp s t)
  else .next (idleEdge inp s)

/-- The edges of a list of inputs, in order. -/
def edges : List Inputs → State → Result
  | [], s => .next s
  | inp :: rest, s => thenDo (edge inp s) (edges rest)

/-- The step counter (R86): the number of steps performed since reset, after a list of edges, `n` being
the number before them. A reset edge begins a new count. It is the host's count of `stepped` cycles
(R111, R129): the core has no counter, so it is computed from the edges and is no part of State. -/
def stepsSinceReset (n : Nat) : List Inputs → State → Nat
  | [], _ => n
  | inp :: rest, s =>
    let n' : Nat := if inp.rst then 0 else if stepsAt inp s then n + 1 else n
    match edge inp s with
    | .next t => stepsSinceReset n' rest t
    | .fault _ => n'
    | .refused _ => n'

/-! ### Observation (R111 to R114) -/

/-- What `dbg_data` shows before each edge of a list of inputs. A readout over edges that perform
steps mixes the states they pass through (R114, U11). -/
def debugReadout : List Inputs → State → List Value
  | [], _ => []
  | inp :: rest, s =>
    dbgData inp s ::
      match edge inp s with
      | .next t => debugReadout rest t
      | .fault _ => []
      | .refused _ => []

/-- The source's `state()` (R115): pc, acc, halted, the fault, and the full memory contents (R113). -/
structure Snapshot where
  pc : BitVec 13
  acc : BitVec 12
  halted : Bool
  fault : BitVec 2
  memory : List Value
  deriving DecidableEq, Repr

/-- A snapshot of a state: all 4096 cells in address order (R113, R114). -/
def snapshot (s : State) : Snapshot :=
  { pc := s.pc, acc := s.acc, halted := s.halted, fault := s.fault.code,
    memory := (List.range Config.dmemDepth).map fun a => memRead (BitVec.ofNat 12 a) s }

/-! ### The source's operations (R115, R137) -/

/-- A program image: the instruction words in index order and the memory image (R69). -/
structure Image where
  words : List InstrWord
  mem : Memory
  deriving DecidableEq, Repr

/-- The edges of `load(image)`: one reset edge, a push for each word in index order, a data write for
each nonzero cell (R74, R115, R137). The order of the data writes does not matter (R74; log entry 15). -/
def loadInputs (img : Image) : List Inputs :=
  Inputs.reset :: (img.words.map Inputs.push ++
    (img.mem.filter fun c => c.2 != 0x000#12).map fun c => Inputs.dataLoad (BitVec.ofNat 12 c.1) c.2)

/-- `load(image)` (R115). -/
def hostLoad (img : Image) (s : State) : Result := edges (loadInputs img) s

/-- `step()` (R115): one edge with `step_req`. -/
def hostStep (s : State) : Result := edge Inputs.step s

/-- Waits, with no input, for HALTED, at most `k` edges (R117: the host imposes its own bound). -/
def waitHalted : Nat → State → Result
  | 0, s => .next s
  | k + 1, s => if s.halted then .next s else thenDo (edge Inputs.idle s) (waitHalted k)

/-- `run()` (R115): one edge with `run_req`, then waiting for HALTED; the host's bound is `k` further
edges, since run mode itself has none (R118). -/
def hostRun (k : Nat) (s : State) : Result := thenDo (edge Inputs.run s) (waitHalted k)

/-- How a run ended (R116). -/
inductive RunEnd where
  /-- Normally, by a STOP at this index. -/
  | stopAt (pc : Index)
  /-- By INVALID_PC; the index is the out-of-range one. -/
  | invalidPcAt (pc : Index)
  /-- By ILLEGAL_OPCODE; the index is that of the illegal word. -/
  | illegalOpcodeAt (pc : Index)
  deriving DecidableEq, Repr

/-- The end of a run, once HALTED = 1 (R116). -/
def runEnd (s : State) : Option RunEnd :=
  if s.halted then
    match s.fault with
    | .noFault => some (.stopAt s.pc)
    | .invalidPc => some (.invalidPcAt s.pc)
    | .illegalOpcode => some (.illegalOpcodeAt s.pc)
  else none

end Sys2Proof.Machine
end

