-- ==== Sys2Proof/Machine/Step.lean ====
section
/-! DEFINITION. The step of the machine as the host's interface has it, and the placing of one word. -/

namespace Sys2Proof.Machine

/-- One step: the rising edge with `step_req = 1` and no other input, the source's `step()` (R101,
R115; log entry 1). With HALTED = 0 it performs one step, in run mode the run's own (R102, R105);
with HALTED = 1 it performs none and sets `cmd_err` (R104). Every other edge is `edge`. -/
def step (s : State) : Host.Outcome State Fault Refusal := edge Inputs.step s

/-- `s` with one word, its bits numbered as the opcode table numbers them, where the next step fetches
its instruction (log entry 12): at `IMEM[PC]`, with PROG_LEN past it and the core not halted. A PC
above the store, which no run reaches (R31), becomes 0, the only way a fetch can be made from it. -/
def State.withFetchWord (s : State) (nbits w : Nat) : State :=
  let at0 : Index := if s.pc.toNat < Config.imemDepth then s.pc else 0#13
  { s with
    pc := at0
    imem := Cells.insert at0.toNat (BitVec.ofNat 16 (w % 2 ^ nbits)) s.imem
    progLen := if at0.toNat < s.progLen.toNat then s.progLen else at0 + 1#13
    halted := false
    fault := if s.halted then .noFault else s.fault }

end Sys2Proof.Machine
end

