-- ==== Sys2Proof/Machine/Assembler.lean ====
section
/-! DEFINITION. The toolchain that makes a program image: the assembly language, its errors, the image,
and the printed form of a word (30_encoding.md R60 to R73). It is no part of the hardware (00_scope.md
R4); it fixes which images an assembled program can bring to the core. Text is a list of characters. -/

namespace Sys2Proof.Assembler

open Sys2Proof.Machine

/-! ### Errors (R71) -/

/-- The four errors of the assembler (R71). -/
inductive ErrorKind where
  | syntaxError
  | malformedLiteral
  | addressOutOfRange
  | valueOutOfRange
  deriving DecidableEq, Repr

/-- A failed assembly: the kind, the position of the offending line and its text (R62, R70). The
position counts the lines before it; how the tools number lines is not in the source (N21; log entry 14). -/
structure AsmError where
  kind : ErrorKind
  line : Nat
  text : List Char
  deriving DecidableEq, Repr

/-! ### Lines and tokens (R60, R61) -/

/-- The text before the first `;` (R60). -/
def stripComment : List Char → List Char
  | [] => []
  | c :: cs => if c = ';' then [] else c :: stripComment cs

/-- Space and tab separate tokens (R61, D28). -/
def isBlankChar (c : Char) : Bool := c == ' ' || c == '\t'

/-- The tokens of a text, `cur` being the token read so far; leading and trailing blanks make none (R60, R61). -/
def tokensFrom (cur : List Char) : List Char → List (List Char)
  | [] => if cur = [] then [] else [cur]
  | c :: cs =>
    if isBlankChar c then
      if cur = [] then tokensFrom [] cs else cur :: tokensFrom [] cs
    else tokensFrom (cur ++ [c]) cs

/-- The tokens of one source line (R60, R61). -/
def tokens (line : List Char) : List (List Char) := tokensFrom [] (stripComment line)

/-- The lines of a source text (R60: "One statement per line"), `cur` being the line read so far. -/
def linesFrom (cur : List Char) : List Char → List (List Char)
  | [] => [cur]
  | c :: cs => if c = '\n' then cur :: linesFrom [] cs else linesFrom (cur ++ [c]) cs

/-- The lines of a source text. -/
def sourceLines (text : List Char) : List (List Char) := linesFrom [] text

/-! ### Literals (R64 to R66) -/

/-- The value of a character in a run of consecutive digits, the first of which is worth `base`. -/
def digitInRun (first last : Char) (base : Nat) (c : Char) : Option Nat :=
  if first.toNat ≤ c.toNat ∧ c.toNat ≤ last.toNat then some (base + (c.toNat - first.toNat)) else none

/-- The value of a hexadecimal digit: one of the three runs `0-9`, `a-f`, `A-F` of R64. -/
def hexDigit (c : Char) : Option Nat :=
  (digitInRun '0' '9' 0 c).or ((digitInRun 'a' 'f' 10 c).or (digitInRun 'A' 'F' 10 c))

/-- The value of a run of hexadecimal digits after a prefix of value `acc`. -/
def hexDigits (acc : Nat) : List Char → Option Nat
  | [] => some acc
  | c :: cs =>
    match hexDigit c with
    | none => none
    | some d => hexDigits (acc * 16 + d) cs

/-- A literal: exactly `0x`, then one or more hexadecimal digits (R64). Its range is judged by its
value, so leading zeros do not count (C1). -/
def literal (tok : List Char) : Option Nat :=
  match tok with
  | '0' :: 'x' :: d :: ds => hexDigits 0 (d :: ds)
  | _ => none

/-- An address literal (R65): its form is checked first, then its range (R70). -/
def addressLiteral (tok : List Char) : Except ErrorKind DataAddr :=
  match literal tok with
  | none => .error .malformedLiteral
  | some n => if n ≤ 0xFFF then .ok (BitVec.ofNat 12 n) else .error .addressOutOfRange

/-- A value literal (R66): an unsigned pattern of 12 bits. -/
def valueLiteral (tok : List Char) : Except ErrorKind Value :=
  match literal tok with
  | none => .error .malformedLiteral
  | some n => if n ≤ 0xFFF then .ok (BitVec.ofNat 12 n) else .error .valueOutOfRange

/-! ### Line classification (R62, R63) -/

/-- A classified line (R60, R62). -/
inductive Line where
  /-- Nothing remains of it (R60). -/
  | blank
  /-- `INI a v`: preloads a cell, occupies no instruction slot (R68, R72). -/
  | data (a : DataAddr) (v : Value)
  /-- An instruction (R62). -/
  | instr (i : Instr)
  deriving DecidableEq, Repr

/-- The seven mnemonics that take an operand, in upper case only (R62, R63). -/
def operandMnemonic (tok : List Char) : Option (Operand → Instr) :=
  if tok = ['L', 'O', 'A', 'D'] then some .load
  else if tok = ['S', 'T', 'O', 'R', 'E'] then some .store
  else if tok = ['A', 'D', 'D'] then some .add
  else if tok = ['S', 'U', 'B'] then some .sub
  else if tok = ['J', 'U', 'M', 'P'] then some .jump
  else if tok = ['J', 'G', 'E'] then some .jge
  else if tok = ['J', 'N', 'E'] then some .jne
  else none

/-- `INI` with its further tokens: exactly two, checked left to right (R62, R68, R70). -/
def classifyIni (args : List (List Char)) : Except ErrorKind Line :=
  match args with
  | [a, v] =>
    match addressLiteral a with
    | .error e => .error e
    | .ok addr =>
      match valueLiteral v with
      | .error e => .error e
      | .ok val => .ok (.data addr val)
  | _ => .error .syntaxError

/-- An operand mnemonic with its further tokens: exactly one (R62). -/
def classifyOperand (mk : Operand → Instr) (args : List (List Char)) : Except ErrorKind Line :=
  match args with
  | [a] =>
    match addressLiteral a with
    | .error e => .error e
    | .ok x => .ok (.instr (mk x))
  | _ => .error .syntaxError

/-- Classification on the first token; the shape is checked before any literal (R62, R70). -/
def classify (toks : List (List Char)) : Except ErrorKind Line :=
  match toks with
  | [] => .ok .blank
  | m :: args =>
    if m = ['I', 'N', 'I'] then classifyIni args
    else if m = ['S', 'T', 'O', 'P'] then
      match args with
      | [] => .ok (.instr .stop)
      | _ :: _ => .error .syntaxError
    else
      match operandMnemonic m with
      | some mk => classifyOperand mk args
      | none => .error .syntaxError

/-- One source line. -/
def parseLine (line : List Char) : Except ErrorKind Line := classify (tokens line)

/-! ### The image (R67 to R70) -/

/-- What a line adds to the image so far: an instruction word at the next index (R67), or a preloaded
cell, the last write to a cell winning (R68). -/
def addLine (img : Image) : Line → Image
  | .blank => img
  | .data a v => { img with mem := Memory.write img.mem a v }
  | .instr i => { img with words := img.words ++ [encode i] }

/-- Assembles lines onto an image, `n` lines having gone before; the first failing line aborts it all (R70). -/
def assembleLines (n : Nat) (img : Image) : List (List Char) → Except AsmError Image
  | [] => .ok img
  | l :: ls =>
    match parseLine l with
    | .error k => .error { kind := k, line := n, text := l }
    | .ok p => assembleLines (n + 1) (addLine img p) ls

/-- The assembler: source text to image. The image starts with no word and all cells zero (R68, R69). -/
def assemble (text : List Char) : Except AsmError Image :=
  assembleLines 0 { words := [], mem := [] } (sourceLines text)

/-! ### Printed form (R73) and literals of values (R66) -/

/-- The hexadecimal digits in upper case, in the order of their values (R73). -/
def upperDigits : List Char :=
  ['0', '1', '2', '3', '4', '5', '6', '7', '8', '9', 'A', 'B', 'C', 'D', 'E', 'F']

/-- The upper-case hexadecimal digit of four bits (R73). Four bits always name a place of the list. -/
def hexChar (d : BitVec 4) : Char := upperDigits.getD d.toNat '0'

/-- `0x` and three upper-case digits, the printed operand (R73). It also serves as the literal that
writes a Value (R66): DESIGN CHOICE (log entry 18), for R64 allows leading zeros and R66 does not say
how many digits that literal has. -/
def literalText (x : BitVec 12) : List Char :=
  ['0', 'x', hexChar (x.extractLsb' 8 4), hexChar (x.extractLsb' 4 4), hexChar (x.extractLsb' 0 4)]

/-- `0x` and four upper-case digits (R73). -/
def wordText (w : InstrWord) : List Char :=
  ['0', 'x', hexChar (w.extractLsb' 12 4), hexChar (w.extractLsb' 8 4), hexChar (w.extractLsb' 4 4),
    hexChar (w.extractLsb' 0 4)]

/-- The printed form of a decoded word (R73). -/
def printInstr : Instr → List Char
  | .load x => ['L', 'O', 'A', 'D', ' '] ++ literalText x
  | .store x => ['S', 'T', 'O', 'R', 'E', ' '] ++ literalText x
  | .add x => ['A', 'D', 'D', ' '] ++ literalText x
  | .sub x => ['S', 'U', 'B', ' '] ++ literalText x
  | .jump x => ['J', 'U', 'M', 'P', ' '] ++ literalText x
  | .jge x => ['J', 'G', 'E', ' '] ++ literalText x
  | .jne x => ['J', 'N', 'E', ' '] ++ literalText x
  | .stop => ['S', 'T', 'O', 'P']
  | .illegal w => ['I', 'L', 'L', 'E', 'G', 'A', 'L', ' '] ++ wordText w

/-- The printed form of an instruction word (R73). -/
def printWord (w : InstrWord) : List Char := printInstr (decode w)

end Sys2Proof.Assembler
end

