-- ==== Sys2Proof/Machine/Datapath.lean ====
section
/-! DEFINITION. The datapath reading of a step: the ALU, the branch condition unit, next-PC selection,
the decoder's control signals and the memory interface (20_memory.md R49; 40_execution_cycle.md R79
to R82). It is written from those rules alone and calls no meaning of an instruction. A don't-care
signal is `none` (log entry 13). -/

namespace Sys2Proof.Machine

/-- `alu_op` (R79). -/
inductive AluOp where
  | passB
  | add
  | sub
  deriving DecidableEq, Repr

/-- The 12-bit ALU; it has no flag output (R79). -/
def alu (op : AluOp) (a b : Value) : Value :=
  match op with
  | .passB => b
  | .add => wrap12 (a.toInt + b.toInt)
  | .sub => wrap12 (a.toInt - b.toInt)

/-- `pc_sel` (R81). -/
inductive PcSel where
  | inc
  | target
  | hold
  deriving DecidableEq, Repr

/-- The decoder's control signals (R82). -/
structure Control where
  accWe : Bool
  aluOp : Option AluOp
  dmemRe : Bool
  dmemWe : Bool
  pcSel : PcSel
  halt : Bool
  faultCause : Option FaultCause
  deriving DecidableEq, Repr

/-- The branch condition unit's `taken` (R80). -/
def branchTaken (i : Instr) (ge nz : Bool) : Bool :=
  match i with
  | .jump _ => true
  | .jge _ => ge
  | .jne _ => nz
  | .load _ => false
  | .store _ => false
  | .add _ => false
  | .sub _ => false
  | .stop => false
  | .illegal _ => false

/-- A row of the control table for an instruction that goes on (R82). -/
def Control.going (accWe : Bool) (aluOp : Option AluOp) (re we : Bool) (sel : PcSel) : Control :=
  { accWe := accWe, aluOp := aluOp, dmemRe := re, dmemWe := we, pcSel := sel, halt := false,
    faultCause := none }

/-- A row of the control table for a step that halts (R82). -/
def Control.halting (cause : FaultCause) : Control :=
  { accWe := false, aluOp := none, dmemRe := false, dmemWe := false, pcSel := .hold, halt := true,
    faultCause := some cause }

/-- The control table, row for row (R82); `none` is its last row, the range check that failed. -/
def controlRow (d : Option Instr) (ge nz : Bool) : Control :=
  match d with
  | some (.load _) => .going true (some .passB) true false .inc
  | some (.store _) => .going false none false true .inc
  | some (.add _) => .going true (some .add) true false .inc
  | some (.sub _) => .going true (some .sub) true false .inc
  | some (.jump _) => .going false none false false .target
  | some (.jge _) => .going false none false false (if ge then .target else .inc)
  | some (.jne _) => .going false none false false (if nz then .target else .inc)
  | some .stop => .halting .noFault
  | some (.illegal _) => .halting .illegalOpcode
  | none => .halting .invalidPc

/-- The control signals of a step at `s`. -/
def controlSignals (s : State) : Control := controlRow (fetched s) (condGe s.acc) (condNz s.acc)

/-- The signals between the datapath and the two memories (R49). -/
structure MemSignals where
  imemAddr : Option (BitVec 12)
  imemRdata : Option InstrWord
  dmemAddr : Option DataAddr
  dmemRdata : Option Value
  dmemWdata : Value
  dmemWe : Bool
  dmemRe : Bool
  deriving DecidableEq, Repr

/-- The data address a step drives: the operand field where it accesses data memory, don't care
elsewhere (R49). -/
def drivenDataAddr (s : State) : Option DataAddr :=
  if (controlSignals s).dmemRe || (controlSignals s).dmemWe then (fetched s).bind operandOf else none

/-- The memory interface in a step at `s` (R49): no fetch where the range check fails. -/
def memSignals (s : State) : MemSignals :=
  { imemAddr := if pcInProgram s then some (imemAddr s) else none
    imemRdata := if pcInProgram s then some (ifetch s) else none
    dmemAddr := drivenDataAddr s
    dmemRdata := (drivenDataAddr s).map fun a => memRead a s
    dmemWdata := s.acc
    dmemWe := (controlSignals s).dmemWe
    dmemRe := (controlSignals s).dmemRe }

/-- ACC at the end of the step: the ALU's result iff `acc_we = 1` (R82). -/
def nextAcc (s : State) : Value :=
  match (controlSignals s).accWe, (controlSignals s).aluOp, (memSignals s).dmemRdata with
  | true, some op, some b => alu op s.acc b
  | _, _, _ => s.acc

/-- PC at the end of the step (R81). -/
def nextPc (s : State) : Index :=
  match (controlSignals s).pcSel, (fetched s).bind operandOf with
  | .inc, _ => s.pc + 1#13
  | .target, some x => zext13 x
  | .target, none => s.pc
  | .hold, _ => s.pc

/-- DMEM at the end of the step: `dmem_wdata` written at `dmem_addr` iff `dmem_we = 1` (R49, R82). -/
def nextDmem (s : State) : Memory :=
  match (memSignals s).dmemWe, (memSignals s).dmemAddr with
  | true, some a => Memory.write s.dmem a (memSignals s).dmemWdata
  | _, _ => s.dmem

/-- The step as the datapath performs it: every register and memory written at the end of the step
from the signals of the state before it (R8, R82), and STARTED set (R85). -/
def datapathStep (s : State) : State :=
  { s with
    acc := nextAcc s
    pc := nextPc s
    dmem := nextDmem s
    halted := s.halted || (controlSignals s).halt
    fault := if (controlSignals s).halt then (controlSignals s).faultCause.getD s.fault else s.fault
    started := true }

end Sys2Proof.Machine
end

