-- ==== Sys2Proof/Safety.lean ====
section
/-! DEFINITION. The terms claims are stated in: the invariant of the machine, reachable states, and what
two states have in common. -/

namespace Sys2Proof.Machine

/-- The invariants the spec lists (10_state.md R31). -/
structure SpecInv (s : State) : Prop where
  pc_le : s.pc.toNat ≤ 4096
  progLen_le : s.progLen.toNat ≤ 4096
  fault_halted : s.fault ≠ .noFault → s.halted = true
  halted_started : s.halted = true → s.started = true
  run_not_halted : s.runmode = true → s.halted = false
  ready_fresh : s.started = false → s.pc = 0#13 ∧ s.acc = 0x000#12 ∧ s.fault = .noFault

/-- The form the model's two sparse memories keep: data memory is canonical (R28), and the words of
IMEM that are listed are exactly those below PROG_LEN (R26, R27). -/
structure StorageInv (s : State) : Prop where
  dmem_wf : Memory.wf s.dmem
  imem_listed : s.imem.map Prod.fst = List.range s.progLen.toNat

/-- The invariant of the machine. -/
structure MachineInv (s : State) : Prop where
  spec : SpecInv s
  storage : StorageInv s

/-- A state the machine can be in once reset has been applied: the reset state, and what an edge with
any inputs makes of such a state. -/
inductive Reachable : State → Prop where
  | reset : Reachable State.reset
  | edge (inp : Inputs) (s t : State) : Reachable s → edge inp s = .next t → Reachable t

/-- The nine elements of the spec's state vector (R13), less RUNMODE, are the same: what a program's
effect can be told by. -/
structure SameButRunmode (s t : State) : Prop where
  pc_eq : t.pc = s.pc
  acc_eq : t.acc = s.acc
  halted_eq : t.halted = s.halted
  fault_eq : t.fault = s.fault
  started_eq : t.started = s.started
  progLen_eq : t.progLen = s.progLen
  imem_eq : t.imem = s.imem
  dmem_eq : t.dmem = s.dmem
  imemDraw_eq : t.imemDraw = s.imemDraw

/-- The nine elements of the spec's state vector (R13) are the same; the output pulses may differ. -/
structure SameVector (s t : State) : Prop extends SameButRunmode s t where
  runmode_eq : t.runmode = s.runmode

/-- Everything but PC, ACC and data memory is the same: the frame of an instruction that goes on (R84). -/
structure SameElsewhere (s t : State) : Prop where
  halted_eq : t.halted = s.halted
  fault_eq : t.fault = s.fault
  started_eq : t.started = s.started
  runmode_eq : t.runmode = s.runmode
  progLen_eq : t.progLen = s.progLen
  imem_eq : t.imem = s.imem
  imemDraw_eq : t.imemDraw = s.imemDraw
  stepped_eq : t.stepped = s.stepped
  cmdErr_eq : t.cmdErr = s.cmdErr
  loadErr_eq : t.loadErr = s.loadErr

/-- The cell an instruction stores to and the Value it stores, from a state: STORE alone writes data
memory (R36, R89). -/
def storedCell (i : Instr) (s : State) : Option (DataAddr × Value) :=
  match i with
  | .load _ => none
  | .store x => some (dataAddress x, s.acc)
  | .add _ => none
  | .sub _ => none
  | .jump _ => none
  | .jge _ => none
  | .jne _ => none
  | .stop => none
  | .illegal _ => none

/-- The one cell an edge without reset writes: by the STORE its step executes, or by a host data load
in READY at an edge without a step (R44, R106). -/
def dataWrite (inp : Inputs) (s : State) : Option (DataAddr × Value) :=
  if stepsAt inp s then (fetched s).bind fun i => storedCell i s
  else if inp.dmemLoadWe && decide (phase s = .ready) then some (inp.dmemLoadAddr, inp.dmemLoadData)
  else none

/-- The value most recently given to cell `a` over a list of edges, `v` being the one before them: by a
STORE, by a host data load, or 0 by a reset (R44). -/
def recentValue (a : DataAddr) (v : Value) : List Inputs → State → Value
  | [], _ => v
  | inp :: rest, s =>
    let v' : Value :=
      if inp.rst then 0x000#12
      else match dataWrite inp s with
        | some (b, u) => if b = a then u else v
        | none => v
    match edge inp s with
    | .next t => recentValue a v' rest t
    | .fault _ => v'
    | .refused _ => v'

/-- The core has halted by STOP, without a fault (R98, R116). -/
def EndedNormally (s : State) : Prop := s.halted = true ∧ s.fault = .noFault

/-- The core has halted by a fault (R116, R119). -/
def EndedByFault (s : State) : Prop := s.halted = true ∧ s.fault ≠ .noFault

end Sys2Proof.Machine
end

