-- ==== Sys2Proof/Certificates/Slice0/Obligations.lean ====
section
/-! DEFINITION. The statements for the provers, from the numbered rules of spec/. -/

open Sys2Proof Sys2Proof.Machine

/-! ### Reset -/

/-- 10_state.md R30. "Unspecified" for IMEM is the model's free value (log entry 4), whatever draw it is. -/
def Obligations.ResetStateHoldsSpecValues : Prop :=
  State.reset.pc.toNat = 0 ∧ State.reset.acc = 0x000#12 ∧ State.reset.halted = false ∧
  State.reset.fault.code = 0#2 ∧ State.reset.started = false ∧ State.reset.runmode = false ∧
  State.reset.progLen.toNat = 0 ∧ (∀ a, memRead a State.reset = 0x000#12) ∧
  ∀ i, imemRead i State.reset = Config.imemUnspecified State.reset.imemDraw i

/-- The reset state meets the machine's invariant (10_state.md R30, R31). -/
def Obligations.ResetStateMeetsInvariant : Prop := MachineInv State.reset

/-- 70_reset_and_hazards.md R135: the reset edge from any state and whatever the other inputs are; and
no edge without reset leaves HALTED, or changes the program once a step has been performed. That IMEM
then holds the free value is the model's choice for "unspecified" (log entry 4). -/
def Obligations.ResetEdgeSetsEveryElement : Prop :=
  (∀ (inp : Inputs) (s : State), inp.rst = true → ∃ t, edge inp s = .next t ∧
    t.pc.toNat = 0 ∧ t.acc = 0x000#12 ∧ t.halted = false ∧ t.fault = .noFault ∧ t.started = false ∧
    t.runmode = false ∧ t.progLen.toNat = 0 ∧ (∀ a, memRead a t = 0x000#12) ∧
    (∀ i, imemRead i t = Config.imemUnspecified t.imemDraw i) ∧
    t.stepped = false ∧ t.cmdErr = false ∧ t.loadErr = false ∧ phase t = .ready) ∧
  ∀ (inp : Inputs) (s t : State), inp.rst = false → edge inp s = .next t →
    (s.halted = true → t.halted = true) ∧
    (s.started = true → t.progLen = s.progLen ∧ ∀ i, imemRead i t = imemRead i s)

/-! ### Encoding -/

/-- A few of the decode vectors of 95_test_vectors.md L2 (30_encoding.md R54 to R57). -/
def Obligations.SpecWordsDecode : Prop :=
  decode 0x0FFF#16 = .load 0xFFF#12 ∧ decode 0x1234#16 = .store 0x234#12 ∧
  decode 0x2041#16 = .add 0x041#12 ∧ decode 0x3021#16 = .sub 0x021#12 ∧
  decode 0x4000#16 = .jump 0x000#12 ∧ decode 0x5006#16 = .jge 0x006#12 ∧
  decode 0x6FFF#16 = .jne 0xFFF#12 ∧ decode 0x7ABC#16 = .stop ∧
  decode 0x8000#16 = .illegal 0x8000#16 ∧ decode 0xF123#16 = .illegal 0xF123#16

/-- 30_encoding.md R55: the decoder by the value of the opcode field, w / 4096, and X, w modulo 4096. -/
def Obligations.DecoderFollowsOpcodeMap : Prop :=
  ∀ w : InstrWord, let op := w.toNat / 4096; let x := BitVec.ofNat 12 (w.toNat % 4096)
    (op = 0 → decode w = .load x) ∧ (op = 1 → decode w = .store x) ∧ (op = 2 → decode w = .add x) ∧
    (op = 3 → decode w = .sub x) ∧ (op = 4 → decode w = .jump x) ∧ (op = 5 → decode w = .jge x) ∧
    (op = 6 → decode w = .jne x) ∧ (op = 7 → decode w = .stop) ∧ (8 ≤ op → decode w = .illegal w)

/-- Decoding the encoding of a well-formed instruction gives it back, at every operand (R55, R59), and
what the decoder gives is always well-formed. -/
def Obligations.DecodeEncodeRoundTrip : Prop :=
  (∀ i : Instr, i.wellFormed = true → decode (encode i) = i) ∧
  ∀ w : InstrWord, (decode w).wellFormed = true

/-- 30_encoding.md R59: the encoder's words by number, and encoding what a legal word decodes to. -/
def Obligations.LegalWordReencodes : Prop :=
  (∀ x : Operand,
    (encode (.load x)).toNat = x.toNat ∧ (encode (.store x)).toNat = 0x1000 + x.toNat ∧
    (encode (.add x)).toNat = 0x2000 + x.toNat ∧ (encode (.sub x)).toNat = 0x3000 + x.toNat ∧
    (encode (.jump x)).toNat = 0x4000 + x.toNat ∧ (encode (.jge x)).toNat = 0x5000 + x.toNat ∧
    (encode (.jne x)).toNat = 0x6000 + x.toNat) ∧
  (encode .stop).toNat = 0x7000 ∧
  (∀ w : InstrWord, w.toNat < 0x7000 → encode (decode w) = w) ∧
  ∀ w : InstrWord, 0x7000 ≤ w.toNat → w.toNat < 0x8000 → encode (decode w) = 0x7000#16

/-- Every word fits exactly one row of the opcode map, the row of the instruction it decodes to
(30_encoding.md R54, R55). -/
def Obligations.OpcodeRowsPartitionWords : Prop :=
  ∀ w : InstrWord, (opcodeTable.filter fun r => r.fits w).map OpcodeRow.mnemonic = [(decode w).mnemonic]

/-! ### What each instruction does, where it completes, and its frame -/

/-- 41_data_transfer.md R88. -/
def Obligations.LoadCopiesCellIntoAcc : Prop :=
  ∀ (x : Operand) (s : State), decode (0x0#4 ++ x) = .load x ∧
    ∃ t, exec (.load x) s = .next t ∧ t.acc = memRead x s ∧ t.pc = s.pc + 1#13 ∧
      (∀ a, memRead a t = memRead a s) ∧ SameElsewhere s t

/-- 41_data_transfer.md R89. The stored cell is the address the meaning computes, `dataAddress x`,
which the rule says is X. -/
def Obligations.StoreCopiesAccIntoCell : Prop :=
  ∀ (x : Operand) (s : State), decode (0x1#4 ++ x) = .store x ∧ dataAddress x = x ∧
    ∃ t, exec (.store x) s = .next t ∧ memRead (dataAddress x) t = s.acc ∧
      (∀ a, a ≠ dataAddress x → memRead a t = memRead a s) ∧ t.acc = s.acc ∧ t.pc = s.pc + 1#13 ∧
      SameElsewhere s t

/-- 42_arithmetic.md R91: the sum in arbitrary precision, reduced modulo 4096 and read as signed. -/
def Obligations.AddWrapsSumIntoAcc : Prop :=
  ∀ (x : Operand) (s : State), decode (0x2#4 ++ x) = .add x ∧
    ∃ t, exec (.add x) s = .next t ∧
      t.acc.toInt = Int.bmod (s.acc.toInt + (memRead x s).toInt) 4096 ∧ t.pc = s.pc + 1#13 ∧
      (∀ a, memRead a t = memRead a s) ∧ SameElsewhere s t

/-- 42_arithmetic.md R92: ACC minus the cell, never the reverse. -/
def Obligations.SubWrapsDifferenceIntoAcc : Prop :=
  ∀ (x : Operand) (s : State), decode (0x3#4 ++ x) = .sub x ∧
    ∃ t, exec (.sub x) s = .next t ∧
      t.acc.toInt = Int.bmod (s.acc.toInt - (memRead x s).toInt) 4096 ∧ t.pc = s.pc + 1#13 ∧
      (∀ a, memRead a t = memRead a s) ∧ SameElsewhere s t

/-- 43_control_transfer.md R95. -/
def Obligations.JumpSetsPcToIndex : Prop :=
  ∀ (x : Operand) (s : State), decode (0x4#4 ++ x) = .jump x ∧
    ∃ t, exec (.jump x) s = .next t ∧ t.pc.toNat = x.toNat ∧ t.acc = s.acc ∧
      (∀ a, memRead a t = memRead a s) ∧ SameElsewhere s t

/-- 43_control_transfer.md R96: the sign of ACC decides. -/
def Obligations.JgeJumpsIffAccNotNegative : Prop :=
  ∀ (x : Operand) (s : State), decode (0x5#4 ++ x) = .jge x ∧
    ∃ t, exec (.jge x) s = .next t ∧ (0 ≤ s.acc.toInt ↔ s.acc.getLsbD 11 = false) ∧
      (0 ≤ s.acc.toInt → t.pc.toNat = x.toNat) ∧ (s.acc.toInt < 0 → t.pc = s.pc + 1#13) ∧
      t.acc = s.acc ∧ (∀ a, memRead a t = memRead a s) ∧ SameElsewhere s t

/-- 43_control_transfer.md R97: ACC = 0 is not taken, every nonzero ACC is. -/
def Obligations.JneJumpsIffAccNotZero : Prop :=
  ∀ (x : Operand) (s : State), decode (0x6#4 ++ x) = .jne x ∧
    ∃ t, exec (.jne x) s = .next t ∧
      (s.acc.toNat ≠ 0 → t.pc.toNat = x.toNat) ∧ (s.acc.toNat = 0 → t.pc = s.pc + 1#13) ∧
      t.acc = s.acc ∧ (∀ a, memRead a t = memRead a s) ∧ SameElsewhere s t

/-- 44_stop.md R98: every word 0x7000 to 0x7FFF; only HALTED and FAULT are written, and a step from
the state it leaves, where the core is halted, changes no element of the state vector. -/
def Obligations.StopHaltsWithoutFault : Prop :=
  (∀ x : Operand, decode (0x7#4 ++ x) = .stop) ∧
  ∀ s : State, ∃ t, exec .stop s = .next t ∧ t = { s with halted := true, fault := .noFault } ∧
    EndedNormally t ∧ (∀ a, memRead a t = memRead a s) ∧ ∃ u, step t = .next u ∧ SameVector t u

/-- 60_exceptions.md R121 at the level of the instruction: its own effect is to raise ILLEGAL_OPCODE,
for the word of any opcode from 0x8 on. -/
def Obligations.IllegalWordRaisesIllegalOpcode : Prop :=
  ∀ (w : InstrWord) (s : State), (0x8000 ≤ w.toNat → decode w = .illegal w) ∧
    ∃ t, exec (.illegal w) s = .next t ∧ t = { s with halted := true, fault := .illegalOpcode } ∧
      EndedByFault t ∧ ∀ a, memRead a t = memRead a s

/-- 42_arithmetic.md R90: signed and unsigned readings of the wrapped result; exact whenever the
mathematical result is a Value, else off by exactly 4096; overflow sets nothing. -/
def Obligations.ArithmeticIsExactOrOffBy4096 : Prop :=
  ∀ (x : Operand) (s : State),
    (∃ t, exec (.add x) s = .next t ∧
      let n := s.acc.toInt + (memRead x s).toInt
      t.acc.toNat = (s.acc.toNat + (memRead x s).toNat) % 4096 ∧
      (-2048 ≤ n ∧ n ≤ 2047 → t.acc.toInt = n) ∧
      (n < -2048 → t.acc.toInt = n + 4096) ∧ (2047 < n → t.acc.toInt = n - 4096) ∧ SameElsewhere s t) ∧
    ∃ t, exec (.sub x) s = .next t ∧
      let n := s.acc.toInt - (memRead x s).toInt
      t.acc.toNat = (s.acc.toNat + 4096 - (memRead x s).toNat) % 4096 ∧
      (-2048 ≤ n ∧ n ≤ 2047 → t.acc.toInt = n) ∧
      (n < -2048 → t.acc.toInt = n + 4096) ∧ (2047 < n → t.acc.toInt = n - 4096) ∧ SameElsewhere s t

/-! ### The step -/

/-- A step runs the decoded instruction (40_execution_cycle.md R75, R77, R78, R85): below PROG_LEN and
not halted, `step` is `exec` of what the word at PC decodes to, from the state with STARTED set, and
then the edge's bookkeeping: RUNMODE cleared if it halted, the pulse `stepped`. -/
def Obligations.StepRunsDecodedInstruction : Prop :=
  ∀ (s : State) (i : Instr), s.halted = false → s.pc.toNat < s.progLen.toNat →
    decode (imemRead (s.pc.extractLsb' 0 12) s) = i →
    ∃ t, exec i { s with started := true } = .next t ∧
      step s = .next { t with runmode := s.runmode && !t.halted, stepped := true, cmdErr := false,
                              loadErr := false }

/-- 40_execution_cycle.md R76: the range check fails, nothing is fetched or executed; PC keeps the
out-of-range index. -/
def Obligations.OutOfRangeFetchRaisesInvalidPc : Prop :=
  ∀ s : State, s.halted = false → s.progLen.toNat ≤ s.pc.toNat →
    (memSignals s).imemAddr = none ∧
    step s = .next { s with halted := true, fault := .invalidPc, started := true, runmode := false,
                            stepped := true, cmdErr := false, loadErr := false }

/-- 60_exceptions.md R121 at the level of the step, in either run mode. -/
def Obligations.IllegalWordHaltsStep : Prop :=
  ∀ s : State, s.halted = false → s.pc.toNat < s.progLen.toNat →
    0x8000 ≤ (imemRead (s.pc.extractLsb' 0 12) s).toNat →
    (memSignals s).dmemRe = false ∧ (memSignals s).dmemWe = false ∧
    step s = .next { s with halted := true, fault := .illegalOpcode, started := true, runmode := false,
                            stepped := true, cmdErr := false, loadErr := false }

/-- 40_execution_cycle.md R83: a step halts in exactly three cases, each with its FAULT; a jump out of
the program halts only in the next step. -/
def Obligations.StepHaltsInExactlyThreeCases : Prop :=
  ∀ s t : State, s.halted = false → step s = .next t →
    let inside := s.pc.toNat < s.progLen.toNat
    let op := (imemRead (s.pc.extractLsb' 0 12) s).toNat / 4096
    let jumps := op = 4 ∨ (op = 5 ∧ 0 ≤ s.acc.toInt) ∨ (op = 6 ∧ s.acc ≠ 0x000#12)
    (t.halted = true ↔ ¬ inside ∨ (inside ∧ op = 7) ∨ (inside ∧ 8 ≤ op)) ∧
    (inside ∧ op = 7 → t.fault = .noFault) ∧ (¬ inside → t.fault = .invalidPc) ∧
    (inside ∧ 8 ≤ op → t.fault = .illegalOpcode) ∧
    (inside ∧ jumps ∧ s.progLen.toNat ≤ (imemRead (s.pc.extractLsb' 0 12) s).toNat % 4096 →
      t.halted = false ∧ ∃ u, step t = .next u ∧ u.halted = true ∧ u.fault = .invalidPc ∧ u.pc = t.pc)

/-- 40_execution_cycle.md R84, with R85: what a performed step leaves unchanged. -/
def Obligations.StepFrame : Prop :=
  ∀ s t : State, s.halted = false → step s = .next t →
    let op := (imemRead (s.pc.extractLsb' 0 12) s).toNat / 4096
    t.imem = s.imem ∧ t.progLen = s.progLen ∧ t.imemDraw = s.imemDraw ∧ t.started = true ∧
    (¬ (s.pc.toNat < s.progLen.toNat ∧ op = 1) → ∀ a, memRead a t = memRead a s) ∧
    (s.pc.toNat < s.progLen.toNat ∧ op = 1 →
      ∀ a, a.toNat ≠ (imemRead (s.pc.extractLsb' 0 12) s).toNat % 4096 → memRead a t = memRead a s) ∧
    (¬ (s.pc.toNat < s.progLen.toNat ∧ (op = 0 ∨ op = 2 ∨ op = 3)) → t.acc = s.acc) ∧
    (s.pc.toNat < s.progLen.toNat ∧ op < 7 → t.halted = false) ∧
    (t.halted = true → t.pc = s.pc) ∧
    (t.halted = false → t.fault = s.fault ∧ t.runmode = s.runmode)

/-- 60_exceptions.md R124: the state after a fault is the state before the step with HALTED, FAULT,
STARTED and RUNMODE written (and the outputs of the edge). -/
def Obligations.FaultIsPrecise : Prop :=
  ∀ s t : State, s.halted = false → step s = .next t → EndedByFault t →
    t = { s with halted := true, fault := t.fault, started := true, runmode := false,
                 stepped := true, cmdErr := false, loadErr := false }

/-- 10_state.md R18: how each step advances PC, and that `PC + 1` never wraps. -/
def Obligations.StepAdvancesPc : Prop :=
  ∀ s t : State, s.halted = false → step s = .next t →
    let w := imemRead (s.pc.extractLsb' 0 12) s
    let op := w.toNat / 4096
    (s.progLen.toNat ≤ s.pc.toNat → t.pc = s.pc) ∧
    (s.pc.toNat < s.progLen.toNat →
      (op < 4 → t.pc = s.pc + 1#13) ∧
      (op = 4 → t.pc.toNat = w.toNat % 4096) ∧
      (op = 5 → if 0 ≤ s.acc.toInt then t.pc.toNat = w.toNat % 4096 else t.pc = s.pc + 1#13) ∧
      (op = 6 → if s.acc ≠ 0x000#12 then t.pc.toNat = w.toNat % 4096 else t.pc = s.pc + 1#13) ∧
      (7 ≤ op → t.pc = s.pc) ∧
      (s.progLen.toNat ≤ 4096 → (s.pc + 1#13).toNat = s.pc.toNat + 1 ∧ s.pc.toNat + 1 ≤ 4096))

/-- 40_execution_cycle.md R87: every step preserves the invariants of R31, and PC afterwards is one of
PC, PC + 1 from inside the program, or a 12-bit target. -/
def Obligations.StepPreservesSpecInvariants : Prop :=
  ∀ s t : State, SpecInv s → step s = .next t → SpecInv t ∧
    (t.pc = s.pc ∨ (t.pc = s.pc + 1#13 ∧ s.pc.toNat < s.progLen.toNat) ∨ t.pc.toNat < 4096)

/-- Every step keeps the whole invariant: the spec's (R31), the canonical form of data memory, and that
the words listed in IMEM are those below PROG_LEN (R26 to R28). -/
def Obligations.StepKeepsInvariant : Prop :=
  ∀ s t : State, MachineInv s → step s = .next t → MachineInv t

/-- So does every rising edge, whatever the host drives: reset, loads, commands, any combination
(48_host_interface.md R100). -/
def Obligations.EdgeKeepsInvariant : Prop :=
  ∀ (inp : Inputs) (s t : State), MachineInv s → edge inp s = .next t → MachineInv t

/-- 10_state.md R31: the invariants hold in every reachable state. -/
def Obligations.ReachableStatesMeetSpecInvariants : Prop :=
  ∀ s : State, Reachable s →
    s.pc.toNat ≤ 4096 ∧ s.progLen.toNat ≤ 4096 ∧ (s.fault ≠ .noFault → s.halted = true) ∧
    (s.halted = true → s.started = true) ∧ (s.runmode = true → s.halted = false) ∧
    (s.started = false → s.pc = 0#13 ∧ s.acc = 0x000#12 ∧ s.fault = .noFault)

/-- No fetch reads an unspecified word (10_state.md R27): under the invariant the word fetched is one
that is listed, so it rests on no free value. -/
def Obligations.FetchReadsOnlyPushedWords : Prop :=
  ∀ s : State, MachineInv s → s.pc.toNat < s.progLen.toNat →
    (s.pc.toNat, ifetch s) ∈ s.imem ∧
    ∀ d : Nat, ifetch { s with imemDraw := d } = ifetch s

/-- No input and no state stops the machine: every edge, and so every step, has a next state
(48_host_interface.md R100, 60_exceptions.md R119). -/
def Obligations.EveryEdgeHasNextState : Prop :=
  (∀ (inp : Inputs) (s : State), ∃ t, edge inp s = .next t) ∧ ∀ s : State, ∃ t, step s = .next t

/-- What STARTED records (10_state.md R24, 40_execution_cycle.md R85): every performed step sets it, and
without a reset nothing clears it, so PHASE does not go back to READY. -/
def Obligations.StartedIsSetByStepsAndClearedByResetOnly : Prop :=
  ∀ (inp : Inputs) (s t : State), inp.rst = false → edge inp s = .next t →
    (t.stepped = true → t.started = true ∧ phase t ≠ .ready) ∧
    (t.stepped = false → t.started = s.started) ∧ (phase s ≠ .ready → phase t ≠ .ready)

/-- The reserved codes of the outputs are never produced (10_state.md R22, R23, R29): FAULT 3 and PHASE
3 in no state, PROG_LEN above 4096 in no state that meets the invariants. -/
def Obligations.OutputsNeverShowReservedCodes : Prop :=
  ∀ s : State, (outputs s).fault ≠ 3#2 ∧ (outputs s).phase ≠ 3#2 ∧
    ((outputs s).phase = 2#2 ↔ (outputs s).halted = true) ∧
    (SpecInv s → (outputs s).progLen.toNat ≤ 4096 ∧ (outputs s).pc.toNat ≤ 4096 ∧
      ((outputs s).fault ≠ 0#2 → (outputs s).phase = 2#2))

/-- The model's own placing of one word (log entry 12): from any state, the next step decodes exactly
that word and is not held back by HALTED; data memory and ACC are as they were. -/
def Obligations.PlacedWordIsFetchedNext : Prop :=
  ∀ (s : State) (w : InstrWord),
    fetched (s.withFetchWord 16 w.toNat) = some (decode w) ∧
    decodeTableWord 16 w.toNat = some (decode w) ∧ (s.withFetchWord 16 w.toNat).halted = false ∧
    (s.withFetchWord 16 w.toNat).acc = s.acc ∧ ∀ a, memRead a (s.withFetchWord 16 w.toNat) = memRead a s

/-! ### The datapath -/

/-- The datapath of 40_execution_cycle.md R79 to R82 and 20_memory.md R49 (ALU, control signals, next-PC
selection, memory signals) performs exactly the step of R75, from every state. -/
def Obligations.DatapathPerformsStep : Prop :=
  ∀ s : State, performStep s = .next (datapathStep s)

/-- 40_execution_cycle.md R79: the ALU's results, and that one 12-bit adder serves both readings. -/
def Obligations.AluAddsBothReadings : Prop :=
  ∀ a b : Value, alu .passB a b = b ∧
    (alu .add a b).toInt = Int.bmod (a.toInt + b.toInt) 4096 ∧
    (alu .sub a b).toInt = Int.bmod (a.toInt - b.toInt) 4096 ∧
    alu .add a b = wrap12 (a.toNat + b.toNat : Nat) ∧
    alu .sub a b = wrap12 ((a.toNat : Int) - (b.toNat : Int)) ∧
    alu .add a b = a + b ∧ alu .sub a b = a - b

/-- 20_memory.md R36: which steps reach data memory, at most one access a step, at X as it stands.
That a step without an access drives no address at all is the model's choice for R49's "don't care"
(log entry 13). -/
def Obligations.StepMakesAtMostOneDataAccess : Prop :=
  ∀ s : State,
    let inside := s.pc.toNat < s.progLen.toNat
    let w := imemRead (s.pc.extractLsb' 0 12) s
    let op := w.toNat / 4096
    ((memSignals s).dmemRe = true ↔ inside ∧ (op = 0 ∨ op = 2 ∨ op = 3)) ∧
    ((memSignals s).dmemWe = true ↔ inside ∧ op = 1) ∧
    ¬ ((memSignals s).dmemRe = true ∧ (memSignals s).dmemWe = true) ∧
    ((memSignals s).dmemRe = true ∨ (memSignals s).dmemWe = true →
      (memSignals s).dmemAddr = some (BitVec.ofNat 12 (w.toNat % 4096))) ∧
    ((memSignals s).dmemRe = false ∧ (memSignals s).dmemWe = false → (memSignals s).dmemAddr = none)

/-- The branch condition unit's bit tests are the signed tests of the rules (10_state.md R20), and an
instruction jumps to X exactly when `taken` (40_execution_cycle.md R80, R81). -/
def Obligations.BranchUnitAgreesWithSignedTests : Prop :=
  (∀ v : Value, (condGe v = true ↔ 0 ≤ v.toInt) ∧ (condNz v = true ↔ v.toInt ≠ 0)) ∧
  ∀ (i : Instr) (s t : State), exec i s = .next t →
    (branchTaken i (condGe s.acc) (condNz s.acc) = true →
      ∃ x, operandOf i = some x ∧ t.pc = zext13 x) ∧
    (branchTaken i (condGe s.acc) (condNz s.acc) = false → t.pc = s.pc + 1#13 ∨ t.halted = true ∧ t.pc = s.pc)

/-! ### Memory -/

/-- 20_memory.md R44: over any edges, a cell reads as the value most recently given to it, by a STORE,
a host data load, or a reset. -/
def Obligations.ReadReturnsMostRecentWrite : Prop :=
  ∀ (ins : List Inputs) (s t : State) (a : DataAddr), edges ins s = .next t →
    memRead a t = recentValue a (memRead a s) ins s

/-- 70_reset_and_hazards.md R141: a STORE is seen by the very next LOAD, ADD or SUB of its cell, and by
no fetch. -/
def Obligations.StoreIsSeenByNextReadAndNoFetch : Prop :=
  ∀ (s t u : State) (x : Operand), s.halted = false → fetched s = some (.store x) → step s = .next t →
    (∀ i, imemRead i t = imemRead i s) ∧
    (step t = .next u →
      (fetched t = some (.load x) → u.acc = s.acc) ∧
      (fetched t = some (.add x) → u.acc = s.acc + s.acc) ∧
      (fetched t = some (.sub x) → u.acc = 0x000#12))

/-- Equal memories are equal data: canonical data memories that read alike at every address are one
list (log entry 5). -/
def Obligations.CanonicalMemoriesReadingAlikeAreEqual : Prop :=
  ∀ m n : Memory, Memory.wf m → Memory.wf n → (∀ a, Memory.read m a = Memory.read n a) → m = n

/-! ### The host interface -/

/-- 48_host_interface.md R107: the push; and that nothing but an accepted push with room changes the program
(10_state.md R26, R27): no other edge without reset writes PROG_LEN or any word of IMEM, and that one
writes no word but the one at index PROG_LEN. -/
def Obligations.PushAppendsWordAtProgLen : Prop :=
  (∀ (inp : Inputs) (s t : State), inp.rst = false → inp.stepReq = false → inp.runReq = false →
    s.runmode = false → s.halted = false → s.started = false → inp.imemPush = true →
    edge inp s = .next t →
    (s.progLen.toNat < 4096 → imemRead (s.progLen.extractLsb' 0 12) t = inp.imemWdata ∧
      t.progLen.toNat = s.progLen.toNat + 1 ∧ t.loadErr = false) ∧
    (s.progLen.toNat = 4096 → t.progLen = s.progLen ∧ (∀ i, imemRead i t = imemRead i s) ∧ t.loadErr = true)) ∧
  ∀ (inp : Inputs) (s t : State), inp.rst = false → edge inp s = .next t →
    (inp.imemPush = false ∨ phase s ≠ .ready ∨ t.stepped = true ∨ 4096 ≤ s.progLen.toNat →
      t.progLen = s.progLen ∧ ∀ i, imemRead i t = imemRead i s) ∧
    s.progLen.toNat ≤ t.progLen.toNat ∧
    ∀ i, i.toNat ≠ s.progLen.toNat → imemRead i t = imemRead i s

/-- 48_host_interface.md R108: the data load, also together with a push. -/
def Obligations.DataLoadWritesOneCell : Prop :=
  ∀ (inp : Inputs) (s t : State), inp.rst = false → inp.stepReq = false → inp.runReq = false →
    s.runmode = false → s.halted = false → s.started = false → inp.dmemLoadWe = true →
    edge inp s = .next t →
    memRead inp.dmemLoadAddr t = inp.dmemLoadData ∧
    (∀ a, a ≠ inp.dmemLoadAddr → memRead a t = memRead a s) ∧
    ∃ u, edge { inp with dmemLoadWe := false } s = .next u ∧ t.progLen = u.progLen ∧ t.imem = u.imem

/-- 48_host_interface.md R109: when `load_err` is set, and that a refused load changes no state. -/
def Obligations.LoadErrExactlyWhenRefused : Prop :=
  ∀ (inp : Inputs) (s t : State), inp.rst = false → edge inp s = .next t →
    (t.loadErr = true ↔
      ((inp.imemPush = true ∨ inp.dmemLoadWe = true) ∧ phase s ≠ .ready) ∨
      (t.stepped = true ∧ (inp.imemPush = true ∨ inp.dmemLoadWe = true)) ∨
      (inp.imemPush = true ∧ s.progLen.toNat = 4096)) ∧
    (phase s ≠ .ready ∨ t.stepped = true →
      ∃ u, edge { inp with imemPush := false, dmemLoadWe := false } s = .next u ∧ SameVector u t) ∧
    (inp.imemPush = true ∧ s.progLen.toNat = 4096 → t.progLen = s.progLen ∧ t.imem = s.imem) ∧
    (inp.imemPush = true ∧ s.progLen.toNat = 4096 ∧ phase s = .ready ∧ t.stepped = false ∧
      inp.dmemLoadWe = true → memRead inp.dmemLoadAddr t = inp.dmemLoadData)

/-- 48_host_interface.md R104: a command while halted, and that `cmd_err` is set after no other edge. -/
def Obligations.CommandWhileHaltedIsRefused : Prop :=
  ∀ (inp : Inputs) (s t : State), inp.rst = false → edge inp s = .next t →
    (t.cmdErr = true ↔ s.halted = true ∧ (inp.stepReq = true ∨ inp.runReq = true)) ∧
    (t.cmdErr = true → SameVector s t ∧ t.stepped = false)

/-- 48_host_interface.md R102, R111: when a step is performed, and that it is one step; without one and
without reset no register of the core changes. The step counter (40_execution_cycle.md R86) goes up by
one at exactly such an edge, that is, with each `stepped`, and a reset begins a new count. -/
def Obligations.StepPerformedExactlyWhenCommanded : Prop :=
  ∀ (inp : Inputs) (s t : State), edge inp s = .next t →
    (t.stepped = true ↔ inp.rst = false ∧ s.halted = false ∧
      (inp.stepReq = true ∨ inp.runReq = true ∨ s.runmode = true)) ∧
    (t.stepped = true → ∃ u, performStep s = .next u ∧ SameButRunmode u t) ∧
    (t.stepped = false → inp.rst = false →
      t.pc = s.pc ∧ t.acc = s.acc ∧ t.halted = s.halted ∧ t.fault = s.fault ∧ t.started = s.started ∧
      t.runmode = s.runmode) ∧
    ∀ (n : Nat) (rest : List Inputs), stepsSinceReset n (inp :: rest) s =
      stepsSinceReset (if inp.rst then 0 else if t.stepped then n + 1 else n) rest t

/-- How RUNMODE changes at an edge without reset (48_host_interface.md R100, R103): a performed step
sets it on `run_req` and clears it when it halts; nothing else changes it. -/
def Obligations.RunmodeSetByRunAndClearedByHalt : Prop :=
  ∀ (inp : Inputs) (s t : State), inp.rst = false → edge inp s = .next t →
    (t.stepped = true → (t.runmode = true ↔ t.halted = false ∧ (s.runmode = true ∨ inp.runReq = true))) ∧
    (t.stepped = false → t.runmode = s.runmode)

/-- A run and single stepping perform the same steps (48_host_interface.md R103, 60_exceptions.md R132):
`run_req` and k idle edges leave what k + 1 `step_req` edges leave, but for RUNMODE, which is 1
exactly while the run has not halted; and the step counter (R86) is the same. -/
def Obligations.RunEqualsSingleStepping : Prop :=
  ∀ (k : Nat) (s : State), ∃ t u,
    edges (Inputs.run :: List.replicate k Inputs.idle) s = .next t ∧
    edges (List.replicate (k + 1) Inputs.step) s = .next u ∧ SameButRunmode t u ∧
    (s.halted = false → t.runmode = !t.halted) ∧
    ∀ n : Nat, stepsSinceReset n (Inputs.run :: List.replicate k Inputs.idle) s =
      stepsSinceReset n (List.replicate (k + 1) Inputs.step) s

/-- A jump to its own index in run mode never ends (43_control_transfer.md R95, 48_host_interface.md
R118): after any number of edges it is there still, and every edge performed a step (R86). -/
def Obligations.SelfJumpNeverHalts : Prop :=
  ∀ (k : Nat) (s : State), s.halted = false → s.runmode = true → s.pc.toNat < 4096 →
    fetched s = some (.jump (s.pc.extractLsb' 0 12)) →
    ∃ t, edges (List.replicate (k + 1) Inputs.idle) s = .next t ∧ t.pc = s.pc ∧ t.acc = s.acc ∧
      t.halted = false ∧ t.runmode = true ∧ t.stepped = true ∧ (∀ a, memRead a t = memRead a s) ∧
      ∀ n : Nat, stepsSinceReset n (List.replicate (k + 1) Inputs.idle) s = n + (k + 1)

/-- A halted core stays as it is until reset, whatever else the host drives (60_exceptions.md R126,
48_host_interface.md R104, R106). -/
def Obligations.HaltedStateStaysUntilReset : Prop :=
  ∀ (ins : List Inputs) (s t : State), s.halted = true → (∀ inp ∈ ins, inp.rst = false) →
    edges ins s = .next t → SameVector s t

/-- `load(image)` (30_encoding.md R74, 48_host_interface.md R115): from any state, the reset, the pushes
and the data writes leave the reset registers, READY, the program in IMEM and the image in DMEM. -/
def Obligations.LoadPutsImageInMachine : Prop :=
  ∀ (img : Image) (s : State), img.words.length ≤ 4096 → Memory.wf img.mem →
    ∃ t, hostLoad img s = .next t ∧ phase t = .ready ∧ t.pc.toNat = 0 ∧ t.acc = 0x000#12 ∧
      t.runmode = false ∧ t.fault = .noFault ∧ t.loadErr = false ∧ t.progLen.toNat = img.words.length ∧
      (∀ (i : Nat) (w : InstrWord), img.words[i]? = some w → imemRead (BitVec.ofNat 12 i) t = w) ∧
      (∀ a, memRead a t = Memory.read img.mem a) ∧ MachineInv t

/-- The debug port and snapshots (48_host_interface.md R113, R114): over edges that perform no step, no
reset and no data load, the readout shows the memory of the one state, and a snapshot lists every cell. -/
def Obligations.ReadoutBetweenStepsIsConsistent : Prop :=
  ∀ (ins : List Inputs) (s : State), s.runmode = false →
    (∀ inp ∈ ins, inp.rst = false ∧ inp.stepReq = false ∧ inp.runReq = false ∧ inp.dmemLoadWe = false) →
    debugReadout ins s = ins.map (fun inp => memRead inp.dbgAddr s) ∧
    ∀ a : DataAddr, (snapshot s).memory[a.toNat]? = some (memRead a s)

/-- The end of a run (48_host_interface.md R116): a run that has halted ended by a STOP at index PC, at
an index out of range, or at an illegal word, and the fault reason tells which. -/
def Obligations.RunEndsAtStopOrFault : Prop :=
  ∀ (k : Nat) (s t : State), s.halted = false → hostRun k s = .next t → t.halted = true →
    (runEnd t = some (.stopAt t.pc) ∧ EndedNormally t ∧ t.pc.toNat < t.progLen.toNat ∧
      (imemRead (t.pc.extractLsb' 0 12) t).toNat / 4096 = 7) ∨
    (runEnd t = some (.invalidPcAt t.pc) ∧ EndedByFault t ∧ t.progLen.toNat ≤ t.pc.toNat) ∨
    (runEnd t = some (.illegalOpcodeAt t.pc) ∧ EndedByFault t ∧ t.pc.toNat < t.progLen.toNat ∧
      8 ≤ (imemRead (t.pc.extractLsb' 0 12) t).toNat / 4096)

/-! ### The assembler -/

open Sys2Proof.Assembler

/-- 30_encoding.md R64: which characters are hexadecimal digits, and their values; which tokens are
literals, and their values; leading zeros do not count. -/
def Obligations.LiteralsArePrefixedHexDigits : Prop :=
  (∀ (c : Char) (n : Nat), hexDigit c = some n ↔
    (c, n) ∈ ['0', '1', '2', '3', '4', '5', '6', '7', '8', '9', 'a', 'b', 'c', 'd', 'e', 'f'].zipIdx ∨
    (c, n) ∈ ['A', 'B', 'C', 'D', 'E', 'F'].zipIdx 10) ∧
  (∀ (tok : List Char) (n : Nat), literal tok = some n ↔
    ∃ ds, tok = '0' :: 'x' :: ds ∧ ds ≠ [] ∧ (∀ c ∈ ds, (hexDigit c).isSome = true) ∧
      n = ds.foldl (fun v c => v * 16 + (hexDigit c).getD 0) 0) ∧
  (∀ (tok : List Char), literal tok = none →
    addressLiteral tok = .error .malformedLiteral ∧ valueLiteral tok = .error .malformedLiteral) ∧
  ∀ ds : List Char, ds ≠ [] → literal ('0' :: 'x' :: '0' :: ds) = literal ('0' :: 'x' :: ds)

/-- 30_encoding.md R65: the range of address literals; nothing is truncated or wrapped. -/
def Obligations.AddressLiteralRange : Prop :=
  ∀ (tok : List Char) (n : Nat), literal tok = some n →
    (n ≤ 0xFFF → ∃ a, addressLiteral tok = .ok a ∧ a.toNat = n) ∧
    (0xFFF < n → addressLiteral tok = .error .addressOutOfRange)

/-- 30_encoding.md R66: value literals, read as an unsigned pattern and reinterpreted as signed; every
Value written as the literal of its pattern (three digits: log entry 18) reads back as itself. -/
def Obligations.ValueLiteralRoundTrip : Prop :=
  (∀ (tok : List Char) (n : Nat), literal tok = some n →
    (n ≤ 0x7FF → ∃ v, valueLiteral tok = .ok v ∧ v.toInt = n) ∧
    (0x7FF < n ∧ n ≤ 0xFFF → ∃ v, valueLiteral tok = .ok v ∧ v.toInt = n - 4096) ∧
    (0xFFF < n → valueLiteral tok = .error .valueOutOfRange)) ∧
  ∀ n : Int, -2048 ≤ n → n ≤ 2047 → ∃ v, valueLiteral (literalText (wrap12 n)) = .ok v ∧ v.toInt = n

/-- Every legal word, printed, assembles to the same word; every STOP word to 0x7000 (30_encoding.md R73). -/
def Obligations.PrintedLegalWordReassembles : Prop :=
  ∀ w : InstrWord, w.toNat < 0x8000 →
    ∃ img, assemble (printWord w) = .ok img ∧ img.mem = [] ∧
      img.words = [if 0x7000 ≤ w.toNat then 0x7000#16 else w]

/-- The words of the image are the encoded instruction lines in source order; blank, comment and `INI`
lines take no index (30_encoding.md R67, R69), and none is illegal (R56). Which lines are instruction
lines and which are blank is R60's and R62's: by their tokens. -/
def Obligations.ImageWordsAreInstructionLines : Prop :=
  (∀ (text : List Char) (img : Image), assemble text = .ok img →
    img.words = (sourceLines text).filterMap (fun l =>
      match parseLine l with
      | .ok (.instr i) => some (encode i)
      | .ok (.data _ _) => none
      | .ok .blank => none
      | .error _ => none) ∧
    ∀ w ∈ img.words, w.toNat < 0x8000) ∧
  (∀ l, parseLine l = .ok .blank ↔ tokens l = []) ∧
  ∀ (l : List Char) (i : Instr), parseLine l = .ok (.instr i) ↔
      (tokens l = [['S', 'T', 'O', 'P']] ∧ i = .stop) ∨
      ∃ m a x, tokens l = [m, a] ∧ addressLiteral a = .ok x ∧
        (m, i) ∈ [(['L', 'O', 'A', 'D'], .load x), (['S', 'T', 'O', 'R', 'E'], .store x), (['A', 'D', 'D'], .add x),
          (['S', 'U', 'B'], .sub x), (['J', 'U', 'M', 'P'], .jump x), (['J', 'G', 'E'], .jge x), (['J', 'N', 'E'], .jne x)]

/-- 30_encoding.md R68: a cell of the image holds what the last `INI` line for it wrote, else zero; and
the image is in canonical form. An `INI` line is one of the tokens `INI`, an address literal and a value
literal, in that order (R62). -/
def Obligations.LastDataDirectiveWins : Prop :=
  (∀ (text : List Char) (img : Image), assemble text = .ok img →
    Memory.wf img.mem ∧
    ∀ a, Memory.read img.mem a = (sourceLines text).foldl (fun v l =>
      match parseLine l with
      | .ok (.data b u) => if b = a then u else v
      | .ok (.instr _) => v
      | .ok .blank => v
      | .error _ => v) 0x000#12) ∧
  ∀ (l : List Char) (b : DataAddr) (u : Value), parseLine l = .ok (.data b u) ↔
    ∃ a v, tokens l = [['I', 'N', 'I'], a, v] ∧ addressLiteral a = .ok b ∧ valueLiteral v = .ok u

/-- All or nothing (30_encoding.md R70): assembly fails exactly when some line does, with the error and
text of the first such line: a bad line is never passed over, and good lines alone never fail. That the number reported is the count of the lines before it is the model's
choice (log entry 14), not R70's. -/
def Obligations.FirstBadLineAbortsAssembly : Prop :=
  (∀ (text : List Char) (e : AsmError), assemble text = .error e →
    (sourceLines text)[e.line]? = some e.text ∧ parseLine e.text = .error e.kind ∧
    ∀ (j : Nat) (l : List Char), j < e.line → (sourceLines text)[j]? = some l → ∃ p, parseLine l = .ok p) ∧
  (∀ text : List Char, (∀ l ∈ sourceLines text, ∃ p, parseLine l = .ok p) → ∃ img, assemble text = .ok img) ∧
  ∀ (text : List Char) (img : Image), assemble text = .ok img → ∀ l ∈ sourceLines text, ∃ p, parseLine l = .ok p
end

