-- ==== Sys2Proof/Laws/Decode.lean ====
section
/-! SUPPORT. The fields of a word and what the decoder does with them (30_encoding.md R51, R52, R55). -/

namespace Sys2Proof

/-! ### The fields of a packed word (R51, R52) -/

@[simp] theorem opField_packWord (op : BitVec 4) (x : Operand) : opField (packWord op x) = op := by
  unfold opField packWord
  exact BitVec.extractLsb'_append_eq_left

@[simp] theorem xField_packWord (op : BitVec 4) (x : Operand) : xField (packWord op x) = x := by
  unfold xField packWord
  exact BitVec.extractLsb'_append_eq_right

/-- The bits of a packed word: the operand below bit 12, the opcode from there. -/
theorem getLsbD_packWord (op : BitVec 4) (x : Operand) (i : Nat) :
    (packWord op x).getLsbD i = if i < 12 then x.getLsbD i else op.getLsbD (i - 12) := by
  unfold packWord
  rw [BitVec.getLsbD_append]

/-- Every word is its two fields, put together. -/
theorem packWord_fields (w : InstrWord) : packWord (opField w) (xField w) = w := by
  apply BitVec.eq_of_getLsbD_eq
  intro i hi
  rw [getLsbD_packWord]
  split
  · simp [xField, *]
  · have h4 : i - 12 < 4 := by omega
    have h12 : 12 + (i - 12) = i := by omega
    simp [opField, h4, h12]

/-- The opcode field as a number. -/
theorem opField_toNat (w : InstrWord) : (opField w).toNat = w.toNat / 4096 := by
  simp [opField, Nat.shiftRight_eq_div_pow]; omega

/-- The operand field as a number. -/
theorem xField_toNat (w : InstrWord) : (xField w).toNat = w.toNat % 4096 := by
  simp [xField]

/-- Decoding a packed word is a choice on its opcode field (R55). -/
theorem decode_packWord (op : BitVec 4) (x : Operand) :
    decode (packWord op x) =
      match op.toNat with
      | 0 => .load x
      | 1 => .store x
      | 2 => .add x
      | 3 => .sub x
      | 4 => .jump x
      | 5 => .jge x
      | 6 => .jne x
      | 7 => .stop
      | _ => .illegal (packWord op x) := by
  unfold decode
  rewrite [opField_packWord, xField_packWord]
  rfl

end Sys2Proof
end

