-- ==== Sys2Proof/Laws/State.lean ====
section
/-! SUPPORT. One lemma per field per state update, each true by rfl, so that no proof unfolds a record
update. -/

namespace Sys2Proof.Machine

@[simp] theorem raiseFault_eq (c : FaultCause) (s : State) : raiseFault c s = s.haltWith c := rfl

@[simp] theorem State.setAcc_pc (v : Value) (s : State) : (s.setAcc v).pc = s.pc := rfl
@[simp] theorem State.setAcc_acc (v : Value) (s : State) : (s.setAcc v).acc = v := rfl
@[simp] theorem State.setAcc_halted (v : Value) (s : State) : (s.setAcc v).halted = s.halted := rfl
@[simp] theorem State.setAcc_fault (v : Value) (s : State) : (s.setAcc v).fault = s.fault := rfl
@[simp] theorem State.setAcc_started (v : Value) (s : State) : (s.setAcc v).started = s.started := rfl
@[simp] theorem State.setAcc_runmode (v : Value) (s : State) : (s.setAcc v).runmode = s.runmode := rfl
@[simp] theorem State.setAcc_progLen (v : Value) (s : State) : (s.setAcc v).progLen = s.progLen := rfl
@[simp] theorem State.setAcc_imem (v : Value) (s : State) : (s.setAcc v).imem = s.imem := rfl
@[simp] theorem State.setAcc_dmem (v : Value) (s : State) : (s.setAcc v).dmem = s.dmem := rfl
@[simp] theorem State.setAcc_stepped (v : Value) (s : State) : (s.setAcc v).stepped = s.stepped := rfl
@[simp] theorem State.setAcc_cmdErr (v : Value) (s : State) : (s.setAcc v).cmdErr = s.cmdErr := rfl
@[simp] theorem State.setAcc_loadErr (v : Value) (s : State) : (s.setAcc v).loadErr = s.loadErr := rfl
@[simp] theorem State.setAcc_imemDraw (v : Value) (s : State) : (s.setAcc v).imemDraw = s.imemDraw := rfl

@[simp] theorem State.setPc_pc (i : Index) (s : State) : (s.setPc i).pc = i := rfl
@[simp] theorem State.setPc_acc (i : Index) (s : State) : (s.setPc i).acc = s.acc := rfl
@[simp] theorem State.setPc_halted (i : Index) (s : State) : (s.setPc i).halted = s.halted := rfl
@[simp] theorem State.setPc_fault (i : Index) (s : State) : (s.setPc i).fault = s.fault := rfl
@[simp] theorem State.setPc_started (i : Index) (s : State) : (s.setPc i).started = s.started := rfl
@[simp] theorem State.setPc_runmode (i : Index) (s : State) : (s.setPc i).runmode = s.runmode := rfl
@[simp] theorem State.setPc_progLen (i : Index) (s : State) : (s.setPc i).progLen = s.progLen := rfl
@[simp] theorem State.setPc_imem (i : Index) (s : State) : (s.setPc i).imem = s.imem := rfl
@[simp] theorem State.setPc_dmem (i : Index) (s : State) : (s.setPc i).dmem = s.dmem := rfl
@[simp] theorem State.setPc_stepped (i : Index) (s : State) : (s.setPc i).stepped = s.stepped := rfl
@[simp] theorem State.setPc_cmdErr (i : Index) (s : State) : (s.setPc i).cmdErr = s.cmdErr := rfl
@[simp] theorem State.setPc_loadErr (i : Index) (s : State) : (s.setPc i).loadErr = s.loadErr := rfl
@[simp] theorem State.setPc_imemDraw (i : Index) (s : State) : (s.setPc i).imemDraw = s.imemDraw := rfl

@[simp] theorem State.incPc_pc (s : State) : s.incPc.pc = s.pc + 1#13 := rfl
@[simp] theorem State.incPc_acc (s : State) : s.incPc.acc = s.acc := rfl
@[simp] theorem State.incPc_halted (s : State) : s.incPc.halted = s.halted := rfl
@[simp] theorem State.incPc_fault (s : State) : s.incPc.fault = s.fault := rfl
@[simp] theorem State.incPc_started (s : State) : s.incPc.started = s.started := rfl
@[simp] theorem State.incPc_runmode (s : State) : s.incPc.runmode = s.runmode := rfl
@[simp] theorem State.incPc_progLen (s : State) : s.incPc.progLen = s.progLen := rfl
@[simp] theorem State.incPc_imem (s : State) : s.incPc.imem = s.imem := rfl
@[simp] theorem State.incPc_dmem (s : State) : s.incPc.dmem = s.dmem := rfl
@[simp] theorem State.incPc_stepped (s : State) : s.incPc.stepped = s.stepped := rfl
@[simp] theorem State.incPc_cmdErr (s : State) : s.incPc.cmdErr = s.cmdErr := rfl
@[simp] theorem State.incPc_loadErr (s : State) : s.incPc.loadErr = s.loadErr := rfl
@[simp] theorem State.incPc_imemDraw (s : State) : s.incPc.imemDraw = s.imemDraw := rfl

@[simp] theorem State.haltWith_pc (c : FaultCause) (s : State) : (s.haltWith c).pc = s.pc := rfl
@[simp] theorem State.haltWith_acc (c : FaultCause) (s : State) : (s.haltWith c).acc = s.acc := rfl
@[simp] theorem State.haltWith_halted (c : FaultCause) (s : State) : (s.haltWith c).halted = true := rfl
@[simp] theorem State.haltWith_fault (c : FaultCause) (s : State) : (s.haltWith c).fault = c := rfl
@[simp] theorem State.haltWith_started (c : FaultCause) (s : State) : (s.haltWith c).started = s.started := rfl
@[simp] theorem State.haltWith_runmode (c : FaultCause) (s : State) : (s.haltWith c).runmode = s.runmode := rfl
@[simp] theorem State.haltWith_progLen (c : FaultCause) (s : State) : (s.haltWith c).progLen = s.progLen := rfl
@[simp] theorem State.haltWith_imem (c : FaultCause) (s : State) : (s.haltWith c).imem = s.imem := rfl
@[simp] theorem State.haltWith_dmem (c : FaultCause) (s : State) : (s.haltWith c).dmem = s.dmem := rfl
@[simp] theorem State.haltWith_stepped (c : FaultCause) (s : State) : (s.haltWith c).stepped = s.stepped := rfl
@[simp] theorem State.haltWith_cmdErr (c : FaultCause) (s : State) : (s.haltWith c).cmdErr = s.cmdErr := rfl
@[simp] theorem State.haltWith_loadErr (c : FaultCause) (s : State) : (s.haltWith c).loadErr = s.loadErr := rfl
@[simp] theorem State.haltWith_imemDraw (c : FaultCause) (s : State) : (s.haltWith c).imemDraw = s.imemDraw := rfl

@[simp] theorem State.markStarted_pc (s : State) : s.markStarted.pc = s.pc := rfl
@[simp] theorem State.markStarted_acc (s : State) : s.markStarted.acc = s.acc := rfl
@[simp] theorem State.markStarted_halted (s : State) : s.markStarted.halted = s.halted := rfl
@[simp] theorem State.markStarted_fault (s : State) : s.markStarted.fault = s.fault := rfl
@[simp] theorem State.markStarted_started (s : State) : s.markStarted.started = true := rfl
@[simp] theorem State.markStarted_runmode (s : State) : s.markStarted.runmode = s.runmode := rfl
@[simp] theorem State.markStarted_progLen (s : State) : s.markStarted.progLen = s.progLen := rfl
@[simp] theorem State.markStarted_imem (s : State) : s.markStarted.imem = s.imem := rfl
@[simp] theorem State.markStarted_dmem (s : State) : s.markStarted.dmem = s.dmem := rfl
@[simp] theorem State.markStarted_stepped (s : State) : s.markStarted.stepped = s.stepped := rfl
@[simp] theorem State.markStarted_cmdErr (s : State) : s.markStarted.cmdErr = s.cmdErr := rfl
@[simp] theorem State.markStarted_loadErr (s : State) : s.markStarted.loadErr = s.loadErr := rfl
@[simp] theorem State.markStarted_imemDraw (s : State) : s.markStarted.imemDraw = s.imemDraw := rfl

@[simp] theorem memWrite_pc (a : DataAddr) (v : Value) (s : State) : (memWrite a v s).pc = s.pc := rfl
@[simp] theorem memWrite_acc (a : DataAddr) (v : Value) (s : State) : (memWrite a v s).acc = s.acc := rfl
@[simp] theorem memWrite_halted (a : DataAddr) (v : Value) (s : State) : (memWrite a v s).halted = s.halted := rfl
@[simp] theorem memWrite_fault (a : DataAddr) (v : Value) (s : State) : (memWrite a v s).fault = s.fault := rfl
@[simp] theorem memWrite_started (a : DataAddr) (v : Value) (s : State) : (memWrite a v s).started = s.started := rfl
@[simp] theorem memWrite_runmode (a : DataAddr) (v : Value) (s : State) : (memWrite a v s).runmode = s.runmode := rfl
@[simp] theorem memWrite_progLen (a : DataAddr) (v : Value) (s : State) : (memWrite a v s).progLen = s.progLen := rfl
@[simp] theorem memWrite_imem (a : DataAddr) (v : Value) (s : State) : (memWrite a v s).imem = s.imem := rfl
@[simp] theorem memWrite_dmem (a : DataAddr) (v : Value) (s : State) : (memWrite a v s).dmem = Memory.write s.dmem a v := rfl
@[simp] theorem memWrite_stepped (a : DataAddr) (v : Value) (s : State) : (memWrite a v s).stepped = s.stepped := rfl
@[simp] theorem memWrite_cmdErr (a : DataAddr) (v : Value) (s : State) : (memWrite a v s).cmdErr = s.cmdErr := rfl
@[simp] theorem memWrite_loadErr (a : DataAddr) (v : Value) (s : State) : (memWrite a v s).loadErr = s.loadErr := rfl
@[simp] theorem memWrite_imemDraw (a : DataAddr) (v : Value) (s : State) : (memWrite a v s).imemDraw = s.imemDraw := rfl

@[simp] theorem pushWord_pc (w : InstrWord) (s : State) : (pushWord w s).pc = s.pc := rfl
@[simp] theorem pushWord_acc (w : InstrWord) (s : State) : (pushWord w s).acc = s.acc := rfl
@[simp] theorem pushWord_halted (w : InstrWord) (s : State) : (pushWord w s).halted = s.halted := rfl
@[simp] theorem pushWord_fault (w : InstrWord) (s : State) : (pushWord w s).fault = s.fault := rfl
@[simp] theorem pushWord_started (w : InstrWord) (s : State) : (pushWord w s).started = s.started := rfl
@[simp] theorem pushWord_runmode (w : InstrWord) (s : State) : (pushWord w s).runmode = s.runmode := rfl
@[simp] theorem pushWord_progLen (w : InstrWord) (s : State) : (pushWord w s).progLen = s.progLen + 1#13 := rfl
@[simp] theorem pushWord_imem (w : InstrWord) (s : State) : (pushWord w s).imem = Cells.insert (s.progLen.extractLsb' 0 12).toNat w s.imem := rfl
@[simp] theorem pushWord_dmem (w : InstrWord) (s : State) : (pushWord w s).dmem = s.dmem := rfl
@[simp] theorem pushWord_stepped (w : InstrWord) (s : State) : (pushWord w s).stepped = s.stepped := rfl
@[simp] theorem pushWord_cmdErr (w : InstrWord) (s : State) : (pushWord w s).cmdErr = s.cmdErr := rfl
@[simp] theorem pushWord_loadErr (w : InstrWord) (s : State) : (pushWord w s).loadErr = s.loadErr := rfl
@[simp] theorem pushWord_imemDraw (w : InstrWord) (s : State) : (pushWord w s).imemDraw = s.imemDraw := rfl

@[simp] theorem State.setRunmode_pc (b : Bool) (s : State) : (s.setRunmode b).pc = s.pc := rfl
@[simp] theorem State.setRunmode_acc (b : Bool) (s : State) : (s.setRunmode b).acc = s.acc := rfl
@[simp] theorem State.setRunmode_halted (b : Bool) (s : State) : (s.setRunmode b).halted = s.halted := rfl
@[simp] theorem State.setRunmode_fault (b : Bool) (s : State) : (s.setRunmode b).fault = s.fault := rfl
@[simp] theorem State.setRunmode_started (b : Bool) (s : State) : (s.setRunmode b).started = s.started := rfl
@[simp] theorem State.setRunmode_runmode (b : Bool) (s : State) : (s.setRunmode b).runmode = b := rfl
@[simp] theorem State.setRunmode_progLen (b : Bool) (s : State) : (s.setRunmode b).progLen = s.progLen := rfl
@[simp] theorem State.setRunmode_imem (b : Bool) (s : State) : (s.setRunmode b).imem = s.imem := rfl
@[simp] theorem State.setRunmode_dmem (b : Bool) (s : State) : (s.setRunmode b).dmem = s.dmem := rfl
@[simp] theorem State.setRunmode_stepped (b : Bool) (s : State) : (s.setRunmode b).stepped = s.stepped := rfl
@[simp] theorem State.setRunmode_cmdErr (b : Bool) (s : State) : (s.setRunmode b).cmdErr = s.cmdErr := rfl
@[simp] theorem State.setRunmode_loadErr (b : Bool) (s : State) : (s.setRunmode b).loadErr = s.loadErr := rfl
@[simp] theorem State.setRunmode_imemDraw (b : Bool) (s : State) : (s.setRunmode b).imemDraw = s.imemDraw := rfl

@[simp] theorem State.setPulses_pc (st ce le : Bool) (s : State) : (s.setPulses st ce le).pc = s.pc := rfl
@[simp] theorem State.setPulses_acc (st ce le : Bool) (s : State) : (s.setPulses st ce le).acc = s.acc := rfl
@[simp] theorem State.setPulses_halted (st ce le : Bool) (s : State) : (s.setPulses st ce le).halted = s.halted := rfl
@[simp] theorem State.setPulses_fault (st ce le : Bool) (s : State) : (s.setPulses st ce le).fault = s.fault := rfl
@[simp] theorem State.setPulses_started (st ce le : Bool) (s : State) : (s.setPulses st ce le).started = s.started := rfl
@[simp] theorem State.setPulses_runmode (st ce le : Bool) (s : State) : (s.setPulses st ce le).runmode = s.runmode := rfl
@[simp] theorem State.setPulses_progLen (st ce le : Bool) (s : State) : (s.setPulses st ce le).progLen = s.progLen := rfl
@[simp] theorem State.setPulses_imem (st ce le : Bool) (s : State) : (s.setPulses st ce le).imem = s.imem := rfl
@[simp] theorem State.setPulses_dmem (st ce le : Bool) (s : State) : (s.setPulses st ce le).dmem = s.dmem := rfl
@[simp] theorem State.setPulses_stepped (st ce le : Bool) (s : State) : (s.setPulses st ce le).stepped = st := rfl
@[simp] theorem State.setPulses_cmdErr (st ce le : Bool) (s : State) : (s.setPulses st ce le).cmdErr = ce := rfl
@[simp] theorem State.setPulses_loadErr (st ce le : Bool) (s : State) : (s.setPulses st ce le).loadErr = le := rfl
@[simp] theorem State.setPulses_imemDraw (st ce le : Bool) (s : State) : (s.setPulses st ce le).imemDraw = s.imemDraw := rfl

@[simp] theorem resetEdge_pc (s : State) : (resetEdge s).pc = 0#13 := rfl
@[simp] theorem resetEdge_acc (s : State) : (resetEdge s).acc = 0x000#12 := rfl
@[simp] theorem resetEdge_halted (s : State) : (resetEdge s).halted = false := rfl
@[simp] theorem resetEdge_fault (s : State) : (resetEdge s).fault = .noFault := rfl
@[simp] theorem resetEdge_started (s : State) : (resetEdge s).started = false := rfl
@[simp] theorem resetEdge_runmode (s : State) : (resetEdge s).runmode = false := rfl
@[simp] theorem resetEdge_progLen (s : State) : (resetEdge s).progLen = 0#13 := rfl
@[simp] theorem resetEdge_imem (s : State) : (resetEdge s).imem = [] := rfl
@[simp] theorem resetEdge_dmem (s : State) : (resetEdge s).dmem = [] := rfl
@[simp] theorem resetEdge_stepped (s : State) : (resetEdge s).stepped = false := rfl
@[simp] theorem resetEdge_cmdErr (s : State) : (resetEdge s).cmdErr = false := rfl
@[simp] theorem resetEdge_loadErr (s : State) : (resetEdge s).loadErr = false := rfl
@[simp] theorem resetEdge_imemDraw (s : State) : (resetEdge s).imemDraw = s.imemDraw + 1 := rfl

end Sys2Proof.Machine
end

