-- ==== Sys2Proof/Laws/Memory.lean ====
section
/-! SUPPORT. The laws of the sparse memories: reading after writing, and that every operation keeps the
canonical form. -/

namespace Sys2Proof.Machine

/-! ### Lists of (key, content) pairs -/

theorem Cells.lookup_insert {α : Type} (a b : Nat) (v : α) (m : List (Nat × α)) :
    Cells.lookup b (Cells.insert a v m) = if b = a then some v else Cells.lookup b m := by
  induction m with
  | nil => simp [Cells.insert, Cells.lookup]
  | cons c m ih =>
    obtain ⟨k, u⟩ := c
    unfold Cells.insert
    split
    · simp [Cells.lookup]
    · split
      · subst_vars
        by_cases h : b = k <;> simp [Cells.lookup, h]
      · by_cases h : b = k
        · have : b ≠ a := by omega
          simp [Cells.lookup, h]; omega
        · simp [Cells.lookup, h, ih]

theorem Cells.lookup_remove {α : Type} (a b : Nat) (m : List (Nat × α)) :
    Cells.lookup b (Cells.remove a m) = if b = a then none else Cells.lookup b m := by
  induction m with
  | nil => simp [Cells.remove, Cells.lookup]
  | cons c m ih =>
    obtain ⟨k, u⟩ := c
    simp only [Cells.remove] at ih
    by_cases hk : k = a
    · subst hk
      by_cases h : b = k <;> simp_all [Cells.remove, Cells.lookup]
    · by_cases h : b = k
      · subst h
        simp [Cells.remove, Cells.lookup, hk]
      · simp [Cells.remove, Cells.lookup, hk, h, ih]

/-- Keys are added by an insertion and otherwise kept. -/
theorem Cells.mem_insert {α : Type} {a : Nat} {v : α} {m : List (Nat × α)} {c : Nat × α}
    (h : c ∈ Cells.insert a v m) : c = (a, v) ∨ c ∈ m := by
  induction m with
  | nil => simpa [Cells.insert] using h
  | cons d m ih =>
    obtain ⟨k, u⟩ := d
    unfold Cells.insert at h
    split at h
    · simpa using h
    · split at h
      · simp only [List.mem_cons] at h ⊢; tauto
      · simp only [List.mem_cons] at h ⊢
        rcases h with h | h
        · tauto
        · rcases ih h with h | h <;> tauto

/-- An insertion keeps the keys strictly rising. -/
theorem Cells.insert_rising {α : Type} (a : Nat) (v : α) (m : List (Nat × α))
    (h : (m.map Prod.fst).Pairwise (· < ·)) : ((Cells.insert a v m).map Prod.fst).Pairwise (· < ·) := by
  induction m with
  | nil => simp [Cells.insert]
  | cons d m ih =>
    obtain ⟨k, u⟩ := d
    simp only [List.map_cons, List.pairwise_cons, List.mem_map] at h
    obtain ⟨hk, hm⟩ := h
    unfold Cells.insert
    split
    · rename_i hak
      simp only [List.map_cons, List.pairwise_cons, List.mem_cons, List.mem_map]
      refine ⟨?_, hk, hm⟩
      rintro b (rfl | ⟨c, hc, rfl⟩)
      · exact hak
      · exact hak.trans (hk _ ⟨c, hc, rfl⟩)
    · split
      · rename_i hak; subst hak
        simpa using ⟨fun b c hc => hk b ⟨_, hc, rfl⟩, hm⟩
      · simp only [List.map_cons, List.pairwise_cons, List.mem_map]
        refine ⟨?_, ih hm⟩
        rintro b ⟨c, hc, rfl⟩
        rcases Cells.mem_insert hc with rfl | hc
        · simp only; omega
        · exact hk _ ⟨c, hc, rfl⟩

/-- Inserting above every key appends. -/
theorem Cells.insert_above {α : Type} (a : Nat) (v : α) (m : List (Nat × α)) (h : ∀ c ∈ m, c.1 < a) :
    Cells.insert a v m = m ++ [(a, v)] := by
  induction m with
  | nil => rfl
  | cons d m ih =>
    obtain ⟨k, u⟩ := d
    have hk : k < a := h (k, u) (by simp)
    rw [Cells.insert, if_neg (by omega), if_neg (by omega), ih fun c hc => h c (by simp [hc])]
    rfl

/-- A key that is listed is looked up with some content listed at it. -/
theorem Cells.lookup_of_key {α : Type} {a : Nat} {m : List (Nat × α)} (h : a ∈ m.map Prod.fst) :
    ∃ v, Cells.lookup a m = some v ∧ (a, v) ∈ m := by
  induction m with
  | nil => simp at h
  | cons d m ih =>
    obtain ⟨k, u⟩ := d
    by_cases hk : a = k
    · subst hk; exact ⟨u, by simp [Cells.lookup]⟩
    · obtain ⟨v, hv, hm⟩ := ih (by simpa [hk] using h)
      exact ⟨v, by simp [Cells.lookup, hk, hv], by simp [hm]⟩

/-! ### Data memory -/

@[simp] theorem Memory.read_nil (a : DataAddr) : Memory.read [] a = 0x000#12 := rfl

/-- Reading after writing: the written cell has the value, every other cell is as before (R41). -/
theorem Memory.read_write (m : Memory) (a b : DataAddr) (v : Value) :
    Memory.read (Memory.write m a v) b = if b = a then v else Memory.read m b := by
  have key : b.toNat = a.toNat ↔ b = a := BitVec.toNat_inj
  unfold Memory.read Memory.write
  split
  · subst_vars
    by_cases h : b = a <;> simp [Cells.lookup_remove, key, h]
  · by_cases h : b = a <;> simp [Cells.lookup_insert, key, h]

/-- Writing keeps the canonical form. -/
theorem Memory.write_wf (m : Memory) (a : DataAddr) (v : Value) (h : Memory.wf m) :
    Memory.wf (Memory.write m a v) := by
  obtain ⟨hr, hc⟩ := h
  unfold Memory.write
  split
  · exact ⟨(hr.sublist (List.filter_sublist.map _)), fun c hm => hc c (List.mem_filter.mp hm).1⟩
  · rename_i hv
    refine ⟨Cells.insert_rising _ _ _ hr, fun c hm => ?_⟩
    rcases Cells.mem_insert hm with rfl | hm
    · exact ⟨by have := a.isLt; simp only [Config.dmemDepth]; omega, hv⟩
    · exact hc c hm

/-- The empty memory is canonical. -/
theorem Memory.wf_nil : Memory.wf [] := by decide

/-! ### The memories of a state -/

/-- Two states with one data memory read alike. -/
theorem memRead_congr {s t : State} (h : t.dmem = s.dmem) (a : DataAddr) : memRead a t = memRead a s := by
  simp [memRead, h]

/-- Two states with one instruction store and one draw read alike. -/
theorem imemRead_congr {s t : State} (hi : t.imem = s.imem) (hd : t.imemDraw = s.imemDraw) (a : BitVec 12) :
    imemRead a t = imemRead a s := by
  simp [imemRead, hi, hd]

theorem memRead_memWrite (a b : DataAddr) (v : Value) (s : State) :
    memRead b (memWrite a v s) = if b = a then v else memRead b s :=
  Memory.read_write s.dmem a b v

theorem memWrite_wf (a : DataAddr) (v : Value) (s : State) (h : Memory.wf s.dmem) :
    Memory.wf (memWrite a v s).dmem :=
  Memory.write_wf s.dmem a v h

/-- Reading the instruction store after a push. -/
theorem imemRead_pushWord (a : BitVec 12) (w : InstrWord) (s : State) :
    imemRead a (pushWord w s) = if a = s.progLen.extractLsb' 0 12 then w else imemRead a s := by
  unfold imemRead
  rw [pushWord_imem, pushWord_imemDraw, Cells.lookup_insert]
  by_cases h : a = s.progLen.extractLsb' 0 12
  · rw [if_pos h, if_pos (congrArg BitVec.toNat h)]; rfl
  · rw [if_neg h, if_neg fun hn => h (BitVec.toNat_inj.mp hn)]

end Sys2Proof.Machine
end

