-- ==== Sys2Proof/Laws/Step.lean ====
section
/-! SUPPORT. What each instruction, a step and an edge can do, said once. -/

namespace Sys2Proof.Machine

/-! ### Instructions -/

@[simp] theorem exec_load (x : Operand) (s : State) :
    exec (.load x) s = .next (s.setAcc (memRead x s)).incPc := rfl
@[simp] theorem exec_store (x : Operand) (s : State) :
    exec (.store x) s = .next (memWrite x s.acc s).incPc := rfl
@[simp] theorem exec_add (x : Operand) (s : State) :
    exec (.add x) s = .next (s.setAcc (addWrap s.acc (memRead x s))).incPc := rfl
@[simp] theorem exec_sub (x : Operand) (s : State) :
    exec (.sub x) s = .next (s.setAcc (subWrap s.acc (memRead x s))).incPc := rfl
@[simp] theorem exec_jump (x : Operand) (s : State) :
    exec (.jump x) s = .next (s.setPc (jumpTarget x)) := rfl
@[simp] theorem exec_jge (x : Operand) (s : State) :
    exec (.jge x) s = .next (if accNonNegative s then s.setPc (jumpTarget x) else s.incPc) := rfl
@[simp] theorem exec_jne (x : Operand) (s : State) :
    exec (.jne x) s = .next (if accNonZero s then s.setPc (jumpTarget x) else s.incPc) := rfl
@[simp] theorem exec_stop (s : State) : exec .stop s = .next (s.haltWith .noFault) := rfl
@[simp] theorem exec_illegal (w : InstrWord) (s : State) :
    exec (.illegal w) s = .next (s.haltWith .illegalOpcode) := rfl

/-- The ways the execution of an instruction changes the state (R82): ACC and PC, a cell and PC, PC
alone, or the halting registers. -/
inductive Effect (s : State) : State → Prop where
  | acc (v : Value) : Effect s (s.setAcc v).incPc
  | cell (a : DataAddr) : Effect s (memWrite a s.acc s).incPc
  | goOn : Effect s s.incPc
  | jump (x : Operand) : Effect s (s.setPc (jumpTarget x))
  | halt (c : FaultCause) : Effect s (s.haltWith c)

/-- Every instruction goes on to a next state, changed in one of these ways. -/
theorem exec_effect (i : Instr) (s : State) : ∃ t, exec i s = .next t ∧ Effect s t := by
  cases i with
  | load x => exact ⟨_, rfl, .acc _⟩
  | store x => exact ⟨_, rfl, .cell _⟩
  | add x => exact ⟨_, rfl, .acc _⟩
  | sub x => exact ⟨_, rfl, .acc _⟩
  | jump x => exact ⟨_, rfl, .jump _⟩
  | jge x =>
    refine ⟨_, exec_jge x s, ?_⟩
    split
    · exact .jump _
    · exact .goOn
  | jne x =>
    refine ⟨_, exec_jne x s, ?_⟩
    split
    · exact .jump _
    · exact .goOn
  | stop => exact ⟨_, rfl, .halt _⟩
  | illegal w => exact ⟨_, rfl, .halt _⟩

/-! ### A step -/

theorem fetched_of_inProgram {s : State} (h : s.pc.toNat < s.progLen.toNat) :
    fetched s = some (decode (ifetch s)) := by
  simp [fetched, pcInProgram, h]

theorem fetched_of_outside {s : State} (h : s.progLen.toNat ≤ s.pc.toNat) : fetched s = none := by
  simp [fetched, pcInProgram, h]

/-- A step executes what it fetched, or raises INVALID_PC. -/
theorem performStep_of_fetched {s : State} {i : Instr} (h : fetched s = some i) :
    performStep s = exec i s.markStarted := by
  simp [performStep, h]

theorem performStep_of_none {s : State} (h : fetched s = none) :
    performStep s = .next (s.markStarted.haltWith .invalidPc) := by
  simp [performStep, h]

/-- A step goes on to a next state: the effect of one instruction, made inside the program, or a halt. -/
theorem performStep_effect (s : State) : ∃ t, performStep s = .next t ∧
    ((pcInProgram s = true ∧ Effect s.markStarted t) ∨ t = s.markStarted.haltWith .invalidPc) := by
  by_cases h : pcInProgram s = true
  · obtain ⟨t, ht, he⟩ := exec_effect (decode (ifetch s)) s.markStarted
    exact ⟨t, by simp [performStep, fetched, h, ht], .inl ⟨h, he⟩⟩
  · exact ⟨_, performStep_of_none (by simp [fetched, h]), .inr rfl⟩

/-! ### An edge -/

theorem edge_of_rst {inp : Inputs} {s : State} (h : inp.rst = true) : edge inp s = .next (resetEdge s) := by
  simp [edge, h]

theorem edge_of_step {inp : Inputs} {s t : State} (h : stepsAt inp s = true) (ht : performStep s = .next t) :
    edge inp s = .next (finishStep inp s t) := by
  have hr : inp.rst = false := by
    cases hr : inp.rst
    · rfl
    · simp [stepsAt, hr] at h
  simp [edge, hr, h, ht, thenDo]

theorem edge_of_idle {inp : Inputs} {s : State} (hr : inp.rst = false) (h : stepsAt inp s = false) :
    edge inp s = .next (idleEdge inp s) := by
  simp [edge, hr, h]

/-- Every edge is a reset, a step with what the edge adds to it, or an edge without a step (R100). -/
theorem edge_cases (inp : Inputs) (s : State) :
    (inp.rst = true ∧ edge inp s = .next (resetEdge s)) ∨
    (inp.rst = false ∧ stepsAt inp s = true ∧
      ∃ t, performStep s = .next t ∧ edge inp s = .next (finishStep inp s t)) ∨
    (inp.rst = false ∧ stepsAt inp s = false ∧ edge inp s = .next (idleEdge inp s)) := by
  cases hr : inp.rst
  · cases hs : stepsAt inp s
    · exact .inr (.inr ⟨rfl, rfl, edge_of_idle hr hs⟩)
    · obtain ⟨t, ht, _⟩ := performStep_effect s
      exact .inr (.inl ⟨rfl, rfl, t, ht, edge_of_step hs ht⟩)
  · exact .inl ⟨rfl, edge_of_rst hr⟩

/-- The steps-at test of the edge that `step` is. -/
@[simp] theorem stepsAt_step (s : State) : stepsAt Inputs.step s = !s.halted := by
  simp [stepsAt, Inputs.step, Inputs.cmd]

@[simp] theorem finishStep_step_fields (s t : State) :
    finishStep Inputs.step s t = (t.setRunmode (s.runmode && !t.halted)).setPulses true false false := by
  simp [finishStep, Inputs.step, Inputs.ld]

/-- `step` while not halted is a step with its bookkeeping. -/
theorem step_of_running {s t : State} (h : s.halted = false) (ht : performStep s = .next t) :
    step s = .next ((t.setRunmode (s.runmode && !t.halted)).setPulses true false false) := by
  rw [step, edge_of_step (by simp [h]) ht, finishStep_step_fields]

/-- `step` while halted only sets `cmd_err` (R104). -/
theorem step_of_halted {s : State} (h : s.halted = true) : step s = .next (s.setPulses false true false) := by
  rw [step, edge_of_idle rfl (by simp [h])]
  simp [idleEdge, Inputs.step, Inputs.ld, Inputs.cmd, h]

end Sys2Proof.Machine
end

