-- ==== Sys2Proof/Laws/Edge.lean ====
section
/-! SUPPORT. What the parts of an edge change: numbers, an edge without a step, edges in sequence. -/

namespace Sys2Proof.Machine

/-! ### Numbers (R7) -/

@[simp] theorem wrap12_toInt (n : Int) : (wrap12 n).toInt = Int.bmod n 4096 := by
  simp [wrap12]

@[simp] theorem jumpTarget_toNat (x : Operand) : (jumpTarget x).toNat = x.toNat := by
  simp [jumpTarget, zext13]; omega

/-- `PC + 1` does not wrap where an instruction executes (R18). -/
theorem incPc_toNat {s : State} (hp : s.pc.toNat < s.progLen.toNat) (hl : s.progLen.toNat ≤ 4096) :
    (s.pc + 1#13).toNat = s.pc.toNat + 1 := by
  rw [BitVec.toNat_add]; simp; omega

/-! ### Phases (R23) -/

theorem phase_eq_ready {s : State} : phase s = .ready ↔ s.halted = false ∧ s.started = false := by
  unfold phase; cases s.halted <;> cases s.started <;> simp

theorem stepsAt_not_halted {inp : Inputs} {s : State} (h : stepsAt inp s = true) : s.halted = false := by
  simp [stepsAt] at h; exact h.2

/-! ### Loads (R107, R108) -/

theorem acceptPush_dmem (inp : Inputs) (s : State) : (acceptPush inp s).dmem = s.dmem := by
  unfold acceptPush; split <;> rfl

theorem acceptData_imem (inp : Inputs) (s : State) : (acceptData inp s).imem = s.imem := by
  unfold acceptData; split <;> rfl

theorem acceptData_progLen (inp : Inputs) (s : State) : (acceptData inp s).progLen = s.progLen := by
  unfold acceptData; split <;> rfl

/-! ### An edge without a step (R100) -/

theorem idleEdge_stepped (inp : Inputs) (s : State) : (idleEdge inp s).stepped = false := by
  unfold idleEdge; split
  · split <;> rfl
  · rfl

/-- It writes no register of the core (R50). -/
theorem idleEdge_registers (inp : Inputs) (s : State) :
    (idleEdge inp s).pc = s.pc ∧ (idleEdge inp s).acc = s.acc ∧ (idleEdge inp s).halted = s.halted ∧
    (idleEdge inp s).fault = s.fault ∧ (idleEdge inp s).started = s.started ∧
    (idleEdge inp s).runmode = s.runmode ∧ (idleEdge inp s).imemDraw = s.imemDraw := by
  simp only [idleEdge]; split
  · split
    · simp only [acceptData, acceptPush]; split <;> split <;> simp
    · simp
  · simp

/-- Outside READY it changes the output pulses only (R106, R109). -/
theorem idleEdge_not_ready {inp : Inputs} {s : State} (h : phase s ≠ .ready) :
    idleEdge inp s = s.setPulses false (inp.cmd && s.halted) inp.ld := by
  unfold idleEdge
  by_cases hl : inp.ld = true <;> simp [h, hl]

/-! ### Edges in sequence -/

@[simp] theorem thenDo_next (s : State) (k : State → Result) : thenDo (.next s) k = k s := rfl

@[simp] theorem edges_nil (s : State) : edges [] s = .next s := rfl

theorem edges_cons {inp : Inputs} {s t : State} (h : edge inp s = .next t) (rest : List Inputs) :
    edges (inp :: rest) s = edges rest t := by
  rw [edges, h, thenDo_next]

@[simp] theorem stepsSinceReset_nil (n : Nat) (s : State) : stepsSinceReset n [] s = n := rfl

/-- The count after one edge goes on from its next state (R86). -/
theorem stepsSinceReset_cons {inp : Inputs} {s t : State} (h : edge inp s = .next t) (n : Nat)
    (rest : List Inputs) :
    stepsSinceReset n (inp :: rest) s =
      stepsSinceReset (if inp.rst then 0 else if stepsAt inp s then n + 1 else n) rest t := by
  rw [stepsSinceReset, h]

end Sys2Proof.Machine
end

