-- ==== Sys2Proof/Laws/PerInstr.lean ====
section
/-! SUPPORT. Statements made instruction by instruction: the word an instruction encodes to fits the row
of the opcode table that bears its mnemonic (30_encoding.md R54, R59). -/

namespace Sys2Proof

theorem packWord_and (a b : BitVec 4) (x y : Operand) :
    packWord a x &&& packWord b y = packWord (a &&& b) (x &&& y) := by
  apply BitVec.eq_of_getLsbD_eq
  intro i hi
  simp only [BitVec.getLsbD_and, getLsbD_packWord]
  split <;> rfl

/-- Whether a word fits a row of the opcode table depends on its opcode field alone. -/
theorem fits_opField {r : OpcodeRow} (h : r ∈ opcodeTable) (op : BitVec 4) (x : Operand) :
    r.fits (packWord op x) = r.fits (packWord op 0#12) := by
  have hm : ∃ m, r.mask = packWord m 0#12 := by
    simp only [opcodeTable, List.mem_cons, List.not_mem_nil, or_false] at h
    rcases h with rfl | rfl | rfl | rfl | rfl | rfl | rfl | rfl | rfl
    all_goals first | exact ⟨0xF#4, rfl⟩ | exact ⟨0x8#4, rfl⟩
  obtain ⟨m, hm⟩ := hm
  simp only [OpcodeRow.fits, hm, packWord_and, BitVec.and_zero]

theorem rowsFitting_packWord (op : BitVec 4) (x : Operand) :
    (opcodeTable.filter fun r => r.fits (packWord op x)) = opcodeTable.filter fun r => r.fits (packWord op 0#12) :=
  List.filter_congr fun _ h => fits_opField h op x

end Sys2Proof

namespace Sys2Proof.Laws.EncodingFitsRow

/-- The encoding of a well-formed instruction fits exactly the row of its own mnemonic. -/
def Statement (i : Instr) : Prop :=
  i.wellFormed = true →
    (opcodeTable.filter fun r => r.fits (encode i)).map OpcodeRow.mnemonic = [i.mnemonic]

/-- The row of a packed word, read off at operand 0. -/
theorem of_packWord {op : BitVec 4} {n : String} (x : Operand)
    (h : (opcodeTable.filter fun r => r.fits (packWord op 0#12)).map OpcodeRow.mnemonic = [n]) :
    (opcodeTable.filter fun r => r.fits (packWord op x)).map OpcodeRow.mnemonic = [n] := by
  rw [rowsFitting_packWord, h]

theorem load (x : Operand) : Statement (.load x) := fun _ => of_packWord (n := "LOAD") x (by decide)
theorem store (x : Operand) : Statement (.store x) := fun _ => of_packWord (n := "STORE") x (by decide)
theorem add (x : Operand) : Statement (.add x) := fun _ => of_packWord (n := "ADD") x (by decide)
theorem sub (x : Operand) : Statement (.sub x) := fun _ => of_packWord (n := "SUB") x (by decide)
theorem jump (x : Operand) : Statement (.jump x) := fun _ => of_packWord (n := "JUMP") x (by decide)
theorem jge (x : Operand) : Statement (.jge x) := fun _ => of_packWord (n := "JGE") x (by decide)
theorem jne (x : Operand) : Statement (.jne x) := fun _ => of_packWord (n := "JNE") x (by decide)
theorem stop : Statement .stop := fun _ => by decide

theorem illegal (w : InstrWord) : Statement (.illegal w) := fun hw => by
  have hop : (opField w).getLsbD 3 = true := by
    simpa [opField, Instr.wellFormed] using hw
  have key : ∀ op : BitVec 4, op.getLsbD 3 = true →
      (opcodeTable.filter fun r => r.fits (packWord op 0#12)).map OpcodeRow.mnemonic = ["ILLEGAL"] := by
    decide
  have := of_packWord (xField w) (key _ hop)
  rwa [packWord_fields] at this

end Sys2Proof.Laws.EncodingFitsRow
end

