-- ==== Sys2Proof/Tests/Slice0.lean ====
section
/-! SUPPORT. The model's own tests. Expected values are those of 95_test_vectors.md (named by its vector
ids) or are worked out from the rule named; none was read off the model. -/

namespace Sys2Proof.Tests

open Sys2Proof.Machine Sys2Proof.Assembler

/-! ### Helpers -/

/-- The next state of an outcome. -/
def nextOf (r : Result) : Option State :=
  match r with
  | .next s => some s
  | .fault _ => none
  | .refused _ => none

/-- A running state: one word at index `pc`, PROG_LEN 8, the ACC and the cells given. -/
def at_ (pc : Index) (w : InstrWord) (acc : Value) (mem : Memory) : State :=
  { State.reset with pc := pc, acc := acc, started := true, progLen := 8#13, imem := [(pc.toNat, w)], dmem := mem }

/-- After one step: PC and ACC. -/
def pcAcc (s : State) : Option (Nat × Value) := (nextOf (step s)).map fun t => (t.pc.toNat, t.acc)

/-- After one step: PC, HALTED and the FAULT code. -/
def pcHalt (s : State) : Option (Nat × Bool × BitVec 2) :=
  (nextOf (step s)).map fun t => (t.pc.toNat, t.halted, t.fault.code)

/-- After one edge: PC, PHASE code, RUNMODE, PROG_LEN. -/
def afterEdge (inp : Inputs) (s : State) : Option (Nat × BitVec 2 × Bool × Nat) :=
  (nextOf (edge inp s)).map fun t => (t.pc.toNat, (phase t).code, t.runmode, t.progLen.toNat)

/-- After one edge: the pulses stepped, cmd_err, load_err. -/
def pulses (inp : Inputs) (s : State) : Option (Bool × Bool × Bool) :=
  (nextOf (edge inp s)).map fun t => (t.stepped, t.cmdErr, t.loadErr)

/-! ### Parameters (R5) and well-formedness (R56) -/

theorem test_widths : Value = BitVec Config.dataW ∧ DataAddr = BitVec Config.addrW ∧
    InstrWord = BitVec Config.instrW ∧ Index = BitVec Config.pcW := ⟨rfl, rfl, rfl, rfl⟩

/-- An ILLEGAL that keeps a legal word stands for no word. -/
theorem test_illegal_with_legal_word_is_ill_formed : (Instr.illegal 0x7FFF#16).wellFormed = false := by decide
theorem test_illegal_with_illegal_word_is_well_formed : (Instr.illegal 0x8000#16).wellFormed = true := by decide

/-! ### Decoding: words written out from R51 and R54 (95 L2, decode) -/

theorem test_decode_load : decode 0b0000000000000000#16 = .load 0x000#12 := by decide
theorem test_decode_load_top : decode 0x0FFF#16 = .load 0xFFF#12 := by decide
theorem test_decode_store : decode 0b0001001000110100#16 = .store 0x234#12 := by decide
theorem test_decode_add : decode 0b0010000001000001#16 = .add 0x041#12 := by decide
theorem test_decode_sub : decode 0b0011000000100001#16 = .sub 0x021#12 := by decide
theorem test_decode_jump : decode 0b0100000000000000#16 = .jump 0x000#12 := by decide
theorem test_decode_jge : decode 0b0101000000000110#16 = .jge 0x006#12 := by decide
theorem test_decode_jne : decode 0b0110111111111111#16 = .jne 0xFFF#12 := by decide
theorem test_decode_stop : decode 0x7000#16 = .stop ∧ decode 0x7ABC#16 = .stop ∧ decode 0x7FFF#16 = .stop := by decide
theorem test_decode_illegal : decode 0x8000#16 = .illegal 0x8000#16 ∧ decode 0xF123#16 = .illegal 0xF123#16 ∧
    decode 0xFFFF#16 = .illegal 0xFFFF#16 := by decide
theorem test_encode : encode (.load 0x010#12) = 0x0010#16 ∧ encode (.store 0x022#12) = 0x1022#16 ∧
    encode (.jump 0x008#12) = 0x4008#16 ∧ encode .stop = 0x7000#16 := by decide
theorem test_stop_word_reencodes_canonically : encode (decode 0x7ABC#16) = 0x7000#16 := by decide
theorem test_last_word_before_stop_reencodes : encode (decode 0x6FFF#16) = 0x6FFF#16 := by decide
theorem test_decode_table_word : decodeTableWord 16 0x3021 = some (.sub 0x021#12) ∧
    decodeTableWord 17 0x3021 = none := by decide

/-! ### LOAD and STORE (95 L2: L1, L3, S1, S2) -/

theorem test_load_L1 : pcAcc (at_ 0#13 0x0010#16 0x5A5#12 [(0x010, 0x001#12)]) = some (1, 0x001#12) := by decide
theorem test_load_L3 : pcAcc (at_ 2#13 0x0FFF#16 0x000#12 [(0xFFF, 0x800#12)]) = some (3, 0x800#12) := by decide
theorem test_store_S1 :
    (nextOf (step (at_ 3#13 0x1042#16 0x800#12 []))).map (fun t => (t.pc.toNat, t.acc, t.dmem)) =
      some (4, 0x800#12, [(0x042, 0x800#12)]) := by decide
theorem test_store_zero_S2 :
    (nextOf (step (at_ 0#13 0x1010#16 0x000#12 [(0x010, 0x7FF#12)]))).map State.dmem = some [] := by decide

/-! ### ADD and SUB (95 L2: A3, A4, A7, A9, B2 to B5, B9) -/

theorem test_add_wraps_A3 : pcAcc (at_ 0#13 0x2041#16 0x7FF#12 [(0x041, 0x001#12)]) = some (1, 0x800#12) := by decide
theorem test_add_wraps_A4 : pcAcc (at_ 0#13 0x2041#16 0x800#12 [(0x041, 0xFFF#12)]) = some (1, 0x7FF#12) := by decide
theorem test_sub_wraps_B3 : pcAcc (at_ 0#13 0x3041#16 0x800#12 [(0x041, 0x001#12)]) = some (1, 0x7FF#12) := by decide
theorem test_sub_wraps_B4 : pcAcc (at_ 0#13 0x3041#16 0x7FF#12 [(0x041, 0xFFF#12)]) = some (1, 0x800#12) := by decide
theorem test_wrap_values : addWrap 0x005#12 0xFFD#12 = 0x002#12 ∧ addWrap 0x7FF#12 0x7FF#12 = 0xFFE#12 ∧
    subWrap 0x005#12 0x007#12 = 0xFFE#12 ∧ subWrap 0x000#12 0x800#12 = 0x800#12 ∧
    subWrap 0x7FF#12 0x800#12 = 0xFFF#12 := by decide

/-! ### JUMP, JGE, JNE (95 L2: J1 to J15) -/

theorem test_jump_J1 : pcAcc (at_ 4#13 0x4006#16 0x123#12 []) = some (6, 0x123#12) := by decide
theorem test_jump_out_of_range_J13 : pcHalt (at_ 4#13 0x4FFF#16 0x000#12 []) = some (0xFFF, false, 0#2) := by decide
theorem test_jge_taken_J2_J4 : pcAcc (at_ 4#13 0x5006#16 0x000#12 []) = some (6, 0x000#12) ∧
    pcAcc (at_ 4#13 0x5006#16 0x7FF#12 []) = some (6, 0x7FF#12) := by decide
theorem test_jge_not_taken_J5_J6 : pcAcc (at_ 4#13 0x5006#16 0x800#12 []) = some (5, 0x800#12) ∧
    pcAcc (at_ 4#13 0x5006#16 0xFFF#12 []) = some (5, 0xFFF#12) := by decide
theorem test_jne_not_taken_J7 : pcAcc (at_ 4#13 0x6006#16 0x000#12 []) = some (5, 0x000#12) := by decide
theorem test_jne_taken_J8_J10 : pcAcc (at_ 4#13 0x6006#16 0x001#12 []) = some (6, 0x001#12) ∧
    pcAcc (at_ 4#13 0x6006#16 0x800#12 []) = some (6, 0x800#12) := by decide

/-! ### STOP and faults (95 L2: T1, T3, F1, F2, F4, F6) -/

theorem test_stop_T1 : pcHalt (at_ 7#13 0x7000#16 0x123#12 []) = some (7, true, 0#2) := by decide
theorem test_stop_T3 : pcHalt (at_ 3#13 0x7FFF#16 0x123#12 []) = some (3, true, 0#2) := by decide
theorem test_invalid_pc_F1 : pcHalt (at_ 8#13 0x0000#16 0x000#12 []) = some (8, true, 1#2) := by decide
theorem test_empty_program_F2 : (nextOf (step State.reset)).map (fun t => (t.started, t.fault.code, t.pc.toNat)) =
    some (true, 1#2, 0) := by decide
theorem test_illegal_F4 : pcHalt (at_ 0#13 0x8000#16 0x000#12 []) = some (0, true, 2#2) := by decide
theorem test_illegal_in_run_mode_clears_runmode :
    (nextOf (step { at_ 1#13 0x9FFF#16 0x00C#12 [] with runmode := true })).map (fun t => (t.runmode, t.acc)) =
      some (false, 0x00C#12) := by decide
theorem test_pc_does_not_wrap_F6 :
    (nextOf (step { State.reset with pc := 4095#13, progLen := 4096#13, imem := [(4095, 0x0000#16)] })).map
      (fun t => (t.pc.toNat, t.halted)) = some (4096, false) := by decide
theorem test_fetch_at_top_F6 :
    pcHalt { State.reset with pc := 4096#13, progLen := 4096#13, started := true } = some (4096, true, 1#2) := by decide

/-! ### Host interface (95 L2: H1, H3, H4, T4) -/

/-- H1 after edge 2: one word pushed. -/
def afterH1Edge2 : State := { State.reset with progLen := 1#13, imem := [(0, 0x0010#16)] }

theorem test_push_and_data_load_H1_3 :
    (nextOf (edge { Inputs.push 0x1011#16 with dmemLoadWe := true, dmemLoadAddr := 0x010#12, dmemLoadData := 0x123#12 }
      afterH1Edge2)).map (fun t => (t.imem, t.progLen.toNat, t.dmem, t.loadErr)) =
      some ([(0, 0x0010#16), (1, 0x1011#16)], 2, [(0x010, 0x123#12)], false) := by decide
theorem test_load_refused_while_running_H1_7 :
    afterEdge (Inputs.push 0x7000#16) (at_ 1#13 0x1011#16 0x123#12 []) = some (1, 1#2, false, 8) ∧
    pulses (Inputs.push 0x7000#16) (at_ 1#13 0x1011#16 0x123#12 []) = some (false, false, true) := by decide
theorem test_command_while_halted_T4 :
    pulses Inputs.run { at_ 2#13 0x7000#16 0x123#12 [] with halted := true } = some (false, true, false) ∧
    afterEdge Inputs.step { at_ 2#13 0x7000#16 0x123#12 [] with halted := true } = some (2, 2#2, false, 8) := by decide
theorem test_step_beats_load_H3 :
    (nextOf (edge { Inputs.push 0x0000#16 with stepReq := true, dmemLoadWe := true, dmemLoadAddr := 0x010#12, dmemLoadData := 0x005#12 }
      { State.reset with progLen := 1#13, imem := [(0, 0x7000#16)] })).map
      (fun t => (t.halted, t.stepped, t.loadErr, t.progLen.toNat, t.dmem.length)) = some (true, true, true, 1, 0) := by decide
theorem test_push_overflow_H4 :
    (nextOf (edge { Inputs.push 0x7000#16 with dmemLoadWe := true, dmemLoadAddr := 0x010#12, dmemLoadData := 0x007#12 }
      { State.reset with progLen := 4096#13 })).map (fun t => (t.loadErr, t.progLen.toNat, t.dmem, t.imem.length)) =
      some (true, 4096, [(0x010, 0x007#12)], 0) := by decide
theorem test_run_starts_H2_1 :
    afterEdge Inputs.run { at_ 0#13 0x0010#16 0x000#12 [] with started := false } = some (1, 1#2, true, 8) := by decide
theorem test_run_goes_on_without_input_H2_2 :
    pulses Inputs.idle { at_ 1#13 0x2010#16 0x001#12 [] with runmode := true } = some (true, false, false) := by decide
theorem test_stop_ends_run_H2_4 :
    afterEdge Inputs.idle { at_ 3#13 0x7000#16 0x002#12 [] with runmode := true } = some (3, 2#2, false, 8) := by decide
theorem test_reset_beats_all :
    afterEdge { rst := true, stepReq := true, imemPush := true } { at_ 3#13 0x7000#16 0x002#12 [] with halted := true } =
      some (0, 0#2, false, 0) := by decide
theorem test_placed_word_runs_after_reset :
    (nextOf (step (State.reset.withFetchWord 16 0x7000))).map (fun t => (t.halted, t.fault.code)) = some (true, 0#2) ∧
    (nextOf (step (State.reset.withFetchWord 16 0x4009))).map (fun t => t.pc.toNat) = some 9 := by decide

/-- R86 and trace H5: a held `step_req` counts at every edge; an idle edge and a refused command do not;
a reset begins a new count. -/
theorem test_step_counter :
    stepsSinceReset 0 [Inputs.step] (at_ 0#13 0x0010#16 0x000#12 []) = 1 ∧
    stepsSinceReset 4 [Inputs.idle] (at_ 0#13 0x0010#16 0x000#12 []) = 4 ∧
    stepsSinceReset 4 [Inputs.run] { at_ 0#13 0x0010#16 0x000#12 [] with halted := true } = 4 ∧
    stepsSinceReset 4 [Inputs.reset] (at_ 0#13 0x0010#16 0x000#12 []) = 0 := by decide

/-! ### Assembler (95 L2, assembler literals; E3; R73) -/

theorem test_parse_load : parseLine "LOAD 0x000000FFF ; end".toList = .ok (.instr (.load 0xFFF#12)) := rfl
theorem test_parse_ini : parseLine " INI 0x10\t0x800".toList = .ok (.data 0x010#12 0x800#12) := rfl
theorem test_parse_errors :
    parseLine "LOAD 0x1000".toList = .error .addressOutOfRange ∧ parseLine "INI 0x10 0x1000".toList = .error .valueOutOfRange ∧
    parseLine "LOAD 0XFFF".toList = .error .malformedLiteral ∧ parseLine "LOAD -0x1".toList = .error .malformedLiteral ∧
    parseLine "STOP 0x0".toList = .error .syntaxError ∧ parseLine "load 0x10".toList = .error .syntaxError :=
  ⟨rfl, rfl, rfl, rfl, rfl, rfl⟩
/-- R64: the ends of the three runs of digits, and the characters just outside them. -/
theorem test_hex_digits :
    ['0', '9', 'a', 'f', 'A', 'F'].map hexDigit = [some 0, some 9, some 10, some 15, some 10, some 15] ∧
    ['/', ':', '`', 'g', '@', 'G', 'X'].map hexDigit = [none, none, none, none, none, none, none] := by decide
theorem test_assemble_E3 :
    assemble "INI 0x10 0x1\n\nLOAD 0x10\nJUMP 0x0".toList =
      .ok { words := [0x0010#16, 0x4000#16], mem := [(0x010, 0x001#12)] } := rfl
theorem test_first_error_reported :
    assemble "LOAD 0x1\nLOAD 0x1000\nMUL".toList =
      .error { kind := .addressOutOfRange, line := 1, text := "LOAD 0x1000".toList } := rfl
theorem test_printed_form : printWord 0x0010#16 = "LOAD 0x010".toList ∧ printWord 0x7ABC#16 = "STOP".toList ∧
    printWord 0x9ABC#16 = "ILLEGAL 0x9ABC".toList := by decide

/-! ### Witnesses: a state and operands that meet the hypotheses of each statement that has any -/

/-- A reachable-looking running state at index 4 with PROG_LEN 8: the words of a program all in place. -/
def running (w : InstrWord) (acc : Value) : State :=
  { State.reset with
    pc := 4#13, acc := acc, started := true, progLen := 5#13
    imem := [(0, 0#16), (1, 0#16), (2, 0#16), (3, 0#16), (4, w)], dmem := [(0x010, 0x001#12)] }

theorem running_meets_invariant : MachineInv (running 0x2010#16 0x7FF#12) :=
  ⟨⟨by decide, by decide, fun h => absurd rfl h, nofun, nofun, nofun⟩,
    ⟨by decide, by decide⟩⟩

theorem witness_ResetEdgeSetsEveryElement :
    Inputs.reset.rst = true ∧ (Inputs.step.rst = false ∧ (running 0x2010#16 0x7FF#12).started = true ∧
      ∃ t, edge Inputs.step (running 0x2010#16 0x7FF#12) = .next t) ∧
    ({ running 0#16 0#12 with halted := true } : State).halted = true ∧
      ∃ t, edge Inputs.step { running 0#16 0#12 with halted := true } = .next t :=
  ⟨rfl, ⟨rfl, rfl, _, rfl⟩, rfl, _, rfl⟩

theorem witness_DecoderFollowsOpcodeMap :
    (0x0FFF#16).toNat / 4096 = 0 ∧ (0x1000#16).toNat / 4096 = 1 ∧ (0x2FFF#16).toNat / 4096 = 2 ∧
    (0x3000#16).toNat / 4096 = 3 ∧ (0x4FFF#16).toNat / 4096 = 4 ∧ (0x5000#16).toNat / 4096 = 5 ∧
    (0x6FFF#16).toNat / 4096 = 6 ∧ (0x7FFF#16).toNat / 4096 = 7 ∧ 8 ≤ (0x8000#16).toNat / 4096 := by decide

theorem witness_DecodeEncodeRoundTrip : (Instr.load 0xFFF#12).wellFormed = true ∧
    (Instr.illegal 0x8000#16).wellFormed = true := by decide

theorem witness_LegalWordReencodes : (0x6FFF#16).toNat < 0x7000 ∧ 0x7000 ≤ (0x7FFF#16).toNat ∧
    (0x7FFF#16).toNat < 0x8000 := by decide

theorem witness_JgeJumpsIffAccNotNegative : 0 ≤ (0x000#12).toInt ∧ 0 ≤ (0x7FF#12).toInt ∧
    (0x800#12).toInt < 0 ∧ (0xFFF#12).toInt < 0 := by decide

theorem witness_JneJumpsIffAccNotZero : (0x800#12).toNat ≠ 0 ∧ (0x000#12).toNat = 0 := by decide

theorem witness_IllegalWordRaisesIllegalOpcode : 0x8000 ≤ (0x8000#16).toNat := by decide

theorem witness_ArithmeticIsExactOrOffBy4096 :
    (-2048 ≤ (0x7FE#12).toInt + (0x001#12).toInt ∧ (0x7FE#12).toInt + (0x001#12).toInt ≤ 2047) ∧
    (0x800#12).toInt + (0xFFF#12).toInt < -2048 ∧ 2047 < (0x7FF#12).toInt + (0x001#12).toInt ∧
    (0x800#12).toInt - (0x001#12).toInt < -2048 ∧ 2047 < (0x7FF#12).toInt - (0xFFF#12).toInt := by decide

theorem witness_StepRunsDecodedInstruction :
    (running 0x2010#16 0x7FF#12).halted = false ∧
    (running 0x2010#16 0x7FF#12).pc.toNat < (running 0x2010#16 0x7FF#12).progLen.toNat ∧
    decode (imemRead ((running 0x2010#16 0x7FF#12).pc.extractLsb' 0 12) (running 0x2010#16 0x7FF#12)) = .add 0x010#12 := by
  decide

theorem witness_OutOfRangeFetchRaisesInvalidPc : State.reset.halted = false ∧
    State.reset.progLen.toNat ≤ State.reset.pc.toNat := by decide

theorem witness_IllegalWordHaltsStep :
    (running 0x8000#16 0#12).halted = false ∧ (running 0x8000#16 0#12).pc.toNat < (running 0x8000#16 0#12).progLen.toNat ∧
    0x8000 ≤ (imemRead ((running 0x8000#16 0#12).pc.extractLsb' 0 12) (running 0x8000#16 0#12)).toNat := by decide

/-- A step from a running state, and that its word is inside the program with a given opcode field. -/
def StepsInside (w : InstrWord) (acc : Value) (op : Nat) : Prop :=
  (running w acc).halted = false ∧ (∃ t, step (running w acc) = .next t) ∧
  (running w acc).pc.toNat < (running w acc).progLen.toNat ∧
  (imemRead ((running w acc).pc.extractLsb' 0 12) (running w acc)).toNat / 4096 = op

/-- One for each clause of the statements about a performed step: every opcode inside the program, a
jump out of it (0x4FFF), both answers of JGE and of JNE, and a step outside (reset). -/
theorem witness_performed_steps :
    StepsInside 0x0010#16 0#12 0 ∧ StepsInside 0x1010#16 0#12 1 ∧ StepsInside 0x2010#16 0#12 2 ∧
    StepsInside 0x3010#16 0#12 3 ∧ StepsInside 0x4FFF#16 0#12 4 ∧ StepsInside 0x5000#16 0x7FF#12 5 ∧
    StepsInside 0x5000#16 0x800#12 5 ∧ StepsInside 0x6000#16 0#12 6 ∧ StepsInside 0x6000#16 1#12 6 ∧
    StepsInside 0x7FFF#16 0#12 7 ∧ StepsInside 0x8000#16 0#12 8 ∧ StepsInside 0xFFFF#16 0#12 15 ∧
    State.reset.halted = false ∧ ∃ t, step State.reset = .next t := by
  refine ⟨?_, ?_, ?_, ?_, ?_, ?_, ?_, ?_, ?_, ?_, ?_, ?_, rfl, _, rfl⟩ <;>
    exact ⟨rfl, ⟨_, rfl⟩, by decide, by decide⟩

/-- A jump of each kind out of the program, its target PROG_LEN itself. -/
theorem witness_StepHaltsInExactlyThreeCases_jump_out :
    StepsInside 0x4005#16 0x800#12 4 ∧ StepsInside 0x5005#16 0x000#12 5 ∧ StepsInside 0x6005#16 0x800#12 6 ∧
    (running 0x4005#16 0x800#12).progLen.toNat ≤ 0x4005 % 4096 ∧ 0 ≤ (0x000#12).toInt ∧ 0x800#12 ≠ 0x000#12 := by
  refine ⟨?_, ?_, ?_, by decide, by decide, by decide⟩ <;> exact ⟨rfl, ⟨_, rfl⟩, by decide, by decide⟩

theorem witness_FaultIsPrecise : (running 0x8000#16 5#12).halted = false ∧
    ∃ t, step (running 0x8000#16 5#12) = .next t ∧ EndedByFault t :=
  ⟨rfl, _, rfl, rfl, by decide⟩

theorem witness_StepAdvancesPc_top :
    ({ State.reset with pc := 4095#13, progLen := 4096#13 } : State).pc.toNat < 4096 ∧ (4096#13).toNat ≤ 4096 := by decide

theorem witness_step_invariants : MachineInv (running 0x2010#16 0x7FF#12) ∧
    SpecInv (running 0x2010#16 0x7FF#12) ∧ (∃ t, step (running 0x2010#16 0x7FF#12) = .next t) ∧
    ∃ t, edge (Inputs.push 0#16) (running 0x2010#16 0x7FF#12) = .next t :=
  ⟨running_meets_invariant, running_meets_invariant.spec, ⟨_, rfl⟩, _, rfl⟩

theorem witness_ReachableStatesMeetSpecInvariants :
    ∃ t, edge (Inputs.push 0x7000#16) State.reset = .next t ∧ Reachable t ∧ t.progLen.toNat = 1 :=
  ⟨_, rfl, .edge (Inputs.push 0x7000#16) State.reset _ .reset rfl, rfl⟩

theorem witness_FetchReadsOnlyPushedWords : MachineInv (running 0x2010#16 0x7FF#12) ∧
    (running 0x2010#16 0x7FF#12).pc.toNat < (running 0x2010#16 0x7FF#12).progLen.toNat :=
  ⟨running_meets_invariant, by decide⟩

/-- Both branches: a step while running, and an edge without a step after STARTED; READY and not. -/
theorem witness_edges_without_reset :
    (∃ t, edge Inputs.step (running 0x2010#16 0#12) = .next t ∧ t.stepped = true) ∧
    (∃ t, edge Inputs.idle (running 0x2010#16 0#12) = .next t ∧ t.stepped = false) ∧
    phase (running 0x2010#16 0#12) ≠ .ready ∧ phase State.reset = .ready := by
  refine ⟨⟨_, rfl, rfl⟩, ⟨_, rfl, rfl⟩, by decide, by decide⟩

theorem witness_OutputsNeverShowReservedCodes : SpecInv (running 0x2010#16 0x7FF#12) :=
  running_meets_invariant.spec

theorem witness_StepMakesAtMostOneDataAccess :
    (memSignals (running 0x2010#16 0#12)).dmemRe = true ∧ (memSignals (running 0x1010#16 0#12)).dmemWe = true ∧
    (memSignals (running 0x4000#16 0#12)).dmemRe = false ∧ (memSignals (running 0x4000#16 0#12)).dmemWe = false := by
  decide

theorem witness_BranchUnitAgreesWithSignedTests :
    (∃ t, exec (.jge 3#12) (running 0#16 0x7FF#12) = .next t) ∧ branchTaken (.jge 3#12) (condGe 0x7FF#12) (condNz 0x7FF#12) = true ∧
    (∃ t, exec (.jge 3#12) (running 0#16 0x800#12) = .next t) ∧ branchTaken (.jge 3#12) (condGe 0x800#12) (condNz 0x800#12) = false :=
  ⟨⟨_, rfl⟩, rfl, ⟨_, rfl⟩, rfl⟩

theorem witness_ReadReturnsMostRecentWrite :
    ∃ t, edges [Inputs.reset, Inputs.dataLoad 0x010#12 0x123#12, Inputs.idle] (running 0#16 0#12) = .next t ∧
      memRead 0x010#12 t = 0x123#12 := ⟨_, rfl, by decide⟩

/-- A STORE at index 0 and a word that reads its cell at index 1. -/
def storeThen (w : InstrWord) : State :=
  { State.reset with acc := 0x123#12, progLen := 2#13, imem := [(0, 0x1010#16), (1, w)] }

/-- The hypotheses hold with the next word a LOAD, an ADD and a SUB of the stored cell. -/
theorem witness_StoreIsSeenByNextReadAndNoFetch :
    ∀ p ∈ [(0x0010#16, Instr.load 0x010#12), (0x2010#16, Instr.add 0x010#12), (0x3010#16, Instr.sub 0x010#12)],
      fetched (storeThen p.1) = some (.store 0x010#12) ∧
      ∃ t, nextOf (step (storeThen p.1)) = some t ∧ fetched t = some p.2 ∧ ∃ u, nextOf (step t) = some u := by
  intro p hp
  simp only [List.mem_cons, List.not_mem_nil, or_false] at hp
  rcases hp with rfl | rfl | rfl <;> exact ⟨by decide, _, rfl, by decide, _, rfl⟩

theorem witness_CanonicalMemoriesReadingAlikeAreEqual :
    Memory.wf [(0, 0x001#12), (4095, 0x800#12)] ∧
    ∀ a, Memory.read [(0, 0x001#12), (4095, 0x800#12)] a = Memory.read [(0, 0x001#12), (4095, 0x800#12)] a :=
  ⟨by decide, fun _ => rfl⟩

theorem witness_PushAppendsWordAtProgLen :
    (∃ t, edge (Inputs.push 0x7000#16) { State.reset with progLen := 4095#13 } = .next t ∧
      (4095#13).toNat < 4096) ∧
    (∃ t, edge (Inputs.push 0x7000#16) { State.reset with progLen := 4096#13 } = .next t) ∧
    (∃ t, edge Inputs.idle State.reset = .next t) ∧
    (∃ t, edge (Inputs.push 0x7000#16) (running 0#16 0#12) = .next t ∧ phase (running 0#16 0#12) ≠ .ready) ∧
    ∃ t, edge { Inputs.push 0x7000#16 with stepReq := true } State.reset = .next t ∧ t.stepped = true :=
  ⟨⟨_, rfl, by decide⟩, ⟨_, rfl⟩, ⟨_, rfl⟩, ⟨_, rfl, by decide⟩, _, rfl, rfl⟩

theorem witness_DataLoadWritesOneCell :
    ∃ t, edge { Inputs.push 0x7000#16 with dmemLoadWe := true, dmemLoadAddr := 0xFFF#12, dmemLoadData := 0x800#12 }
      State.reset = .next t := ⟨_, rfl⟩

theorem witness_LoadErrExactlyWhenRefused :
    (∃ t, edge (Inputs.push 0#16) (running 0#16 0#12) = .next t ∧ phase (running 0#16 0#12) ≠ .ready) ∧
    (∃ t, edge { Inputs.push 0#16 with stepReq := true } State.reset = .next t ∧ t.stepped = true) ∧
    ∃ t, edge { Inputs.push 0#16 with dmemLoadWe := true, dmemLoadData := 5#12 } { State.reset with progLen := 4096#13 } = .next t ∧
      phase ({ State.reset with progLen := 4096#13 } : State) = .ready ∧ t.stepped = false :=
  ⟨⟨_, rfl, by decide⟩, ⟨_, rfl, rfl⟩, _, rfl, by decide, rfl⟩

theorem witness_CommandWhileHaltedIsRefused :
    ∃ t, edge Inputs.run { running 0#16 0#12 with halted := true } = .next t ∧ t.cmdErr = true := ⟨_, rfl, rfl⟩

theorem witness_RunEqualsSingleStepping : (running 0x7000#16 0#12).halted = false := rfl

theorem witness_SelfJumpNeverHalts :
    ({ running 0x4004#16 0#12 with runmode := true } : State).halted = false ∧
    ({ running 0x4004#16 0#12 with runmode := true } : State).pc.toNat < 4096 ∧
    fetched { running 0x4004#16 0#12 with runmode := true } =
      some (.jump (({ running 0x4004#16 0#12 with runmode := true } : State).pc.extractLsb' 0 12)) := by decide

theorem witness_HaltedStateStaysUntilReset :
    (∀ inp ∈ [Inputs.step, Inputs.push 0#16, Inputs.run], inp.rst = false) ∧
    ∃ t, edges [Inputs.step, Inputs.push 0#16, Inputs.run] { running 0#16 0#12 with halted := true } = .next t :=
  ⟨by decide, _, rfl⟩

theorem witness_LoadPutsImageInMachine :
    [0x0010#16, 0x7000#16].length ≤ 4096 ∧ Memory.wf [(0x010, 0x001#12)] ∧ [0x0010#16, 0x7000#16][1]? = some 0x7000#16 := by
  decide

theorem witness_ReadoutBetweenStepsIsConsistent :
    (running 0#16 0#12).runmode = false ∧ ∀ inp ∈ [Inputs.idle, { dbgAddr := 0x010#12 }],
      inp.rst = false ∧ inp.stepReq = false ∧ inp.runReq = false ∧ inp.dmemLoadWe = false := by decide

/-- The three ends of a run: STOP, falling off the end after a LOAD, an illegal word. -/
theorem witness_RunEndsAtStopOrFault :
    (∃ t, hostRun 2 (running 0x7000#16 0#12) = .next t ∧ t.halted = true) ∧
    (∃ t, hostRun 2 (running 0x0010#16 0#12) = .next t ∧ t.halted = true) ∧
    ∃ t, hostRun 2 (running 0x8000#16 0#12) = .next t ∧ t.halted = true :=
  ⟨⟨_, rfl, rfl⟩, ⟨_, rfl, rfl⟩, _, rfl, rfl⟩

theorem witness_literals : literal ['0', 'x', 'F', 'F', 'F'] = some 0xFFF ∧ literal ['0', 'x', '1', '0', '0', '0'] = some 0x1000 ∧
    literal ['0', 'x', '7', 'F', 'F'] = some 0x7FF ∧ literal ['0', 'x', '8', '0', '0'] = some 0x800 ∧
    literal ['0', 'X', '1'] = none ∧ literal ['0', 'x'] = none := ⟨rfl, rfl, rfl, rfl, rfl, rfl⟩

theorem witness_PrintedLegalWordReassembles : (0x6FFF#16).toNat < 0x8000 ∧ (0x7FFF#16).toNat < 0x8000 := by decide

theorem witness_assembled_text :
    (∃ img, assemble "INI 0x10 0x1\nINI 0x10 0x2\nLOAD 0x10".toList = .ok img ∧ img.mem = [(0x010, 0x002#12)]) ∧
    (∃ e, assemble "STOP\nMUL".toList = .error e ∧ e.line = 1) ∧
    (parseLine "INI 0x10 0x800".toList = .ok (.data 0x010#12 0x800#12) ∧
      parseLine "JNE 0xfff".toList = .ok (.instr (.jne 0xFFF#12)) ∧ parseLine " ; end".toList = .ok .blank) ∧
    ∀ l ∈ sourceLines "STOP\n; end".toList, ∃ p, parseLine l = .ok p := by
  refine ⟨⟨_, rfl, rfl⟩, ⟨_, rfl, rfl⟩, ⟨rfl, rfl, rfl⟩, fun l hl => ?_⟩
  have : l = "STOP".toList ∨ l = "; end".toList := by
    have he : sourceLines "STOP\n; end".toList = ["STOP".toList, "; end".toList] := rfl
    rw [he] at hl
    simpa only [List.mem_cons, List.not_mem_nil, or_false] using hl
  rcases this with rfl | rfl
  · exact ⟨.instr .stop, rfl⟩
  · exact ⟨.blank, rfl⟩

end Sys2Proof.Tests
end

/-! ## The state family: what every edge keeps, STARTED and RUNMODE, PC, the canonical memory

Every statement about `edge` goes through `edge_inv`, every statement about a performed step through
`performStep_inv` and the lemmas on `Effect`. -/

namespace Sys2Proof.Machine

/-! ### Inversion of an edge and of a step -/

/-- What an edge that answers `t` has done: a reset, a step with its bookkeeping, or neither (R100). -/
theorem edge_inv {inp : Inputs} {s t : State} (h : edge inp s = .next t) :
    (inp.rst = true ∧ t = resetEdge s) ∨
    (inp.rst = false ∧ stepsAt inp s = true ∧ ∃ u, performStep s = .next u ∧ t = finishStep inp s u) ∨
    (inp.rst = false ∧ stepsAt inp s = false ∧ t = idleEdge inp s) := by
  rcases edge_cases inp s with ⟨hr, he⟩ | ⟨hr, hs, u, hu, he⟩ | ⟨hr, hs, he⟩ <;>
    cases h.symm.trans he
  · exact .inl ⟨hr, rfl⟩
  · exact .inr (.inl ⟨hr, hs, u, hu, rfl⟩)
  · exact .inr (.inr ⟨hr, hs, rfl⟩)

/-- What a step that answers `t` has done: one instruction inside the program, or INVALID_PC (R75, R76). -/
theorem performStep_inv {s t : State} (h : performStep s = .next t) :
    (s.pc.toNat < s.progLen.toNat ∧ Effect s.markStarted t) ∨ t = s.markStarted.haltWith .invalidPc := by
  obtain ⟨u, hu, hcase⟩ := performStep_effect s
  cases h.symm.trans hu
  simpa only [pcInProgram, decide_eq_true_eq] using hcase

/-- Failing the range check is one more way to halt, so every step has an effect on the started state. -/
theorem performStep_next_effect {s t : State} (h : performStep s = .next t) : Effect s.markStarted t := by
  rcases performStep_inv h with ⟨_, he⟩ | rfl
  · exact he
  · exact .halt _

/-! ### Indices -/

/-- The low 12 bits of an index of the store are the index itself (R49, R107). -/
theorem lowBits_toNat {i : Index} (h : i.toNat < 4096) : (i.extractLsb' 0 12).toNat = i.toNat := by
  simp; omega

/-- Below 4096 the successor on 13 bits does not wrap (R18, R107). -/
theorem index_succ_toNat {i : Index} (h : i.toNat < 4096) : (i + 1#13).toNat = i.toNat + 1 := by
  rw [BitVec.toNat_add]; simp; omega

/-! ### What an effect keeps -/

section Effect
variable {s t : State}

theorem Effect.started_eq (h : Effect s t) : t.started = s.started := by cases h <;> rfl
theorem Effect.runmode_eq (h : Effect s t) : t.runmode = s.runmode := by cases h <;> rfl
theorem Effect.progLen_eq (h : Effect s t) : t.progLen = s.progLen := by cases h <;> rfl
theorem Effect.imem_eq (h : Effect s t) : t.imem = s.imem := by cases h <;> rfl

/-- HALTED and FAULT are written together, by halting only. -/
theorem Effect.halts_or_keeps (h : Effect s t) :
    t.halted = true ∨ (t.halted = s.halted ∧ t.fault = s.fault) := by
  cases h with
  | halt c => exact .inl rfl
  | acc v | cell a | goOn | jump x => exact .inr ⟨rfl, rfl⟩

/-- A 13-bit PC below 4096 goes at most to 4096: `PC + 1` does not wrap, an operand has 12 bits (R18). -/
theorem Effect.pc_le (h : Effect s t) (hpc : s.pc.toNat < 4096) : t.pc.toNat ≤ 4096 := by
  have hinc : (s.pc + 1#13).toNat ≤ 4096 := by rw [index_succ_toNat hpc]; exact hpc
  cases h with
  | acc v | cell a | goOn => exact hinc
  | jump x =>
    have hx : x.toNat < 4096 := x.isLt
    simp; omega
  | halt c => exact hpc.le

theorem Effect.dmem_wf (h : Effect s t) (hwf : Memory.wf s.dmem) : Memory.wf t.dmem := by
  cases h with
  | cell a => exact memWrite_wf a s.acc s hwf
  | acc v | goOn | jump x | halt c => exact hwf

end Effect

/-! ### The bookkeeping of a step (R100, R103) -/

section finishStep
variable (inp : Inputs) (s t : State)

@[simp] theorem finishStep_pc : (finishStep inp s t).pc = t.pc := rfl
@[simp] theorem finishStep_acc : (finishStep inp s t).acc = t.acc := rfl
@[simp] theorem finishStep_halted : (finishStep inp s t).halted = t.halted := rfl
@[simp] theorem finishStep_fault : (finishStep inp s t).fault = t.fault := rfl
@[simp] theorem finishStep_started : (finishStep inp s t).started = t.started := rfl
@[simp] theorem finishStep_runmode :
    (finishStep inp s t).runmode = ((s.runmode || inp.runReq) && !t.halted) := rfl
@[simp] theorem finishStep_progLen : (finishStep inp s t).progLen = t.progLen := rfl
@[simp] theorem finishStep_imem : (finishStep inp s t).imem = t.imem := rfl
@[simp] theorem finishStep_dmem : (finishStep inp s t).dmem = t.dmem := rfl
@[simp] theorem finishStep_stepped : (finishStep inp s t).stepped = true := rfl
@[simp] theorem finishStep_cmdErr : (finishStep inp s t).cmdErr = false := rfl
@[simp] theorem finishStep_loadErr : (finishStep inp s t).loadErr = inp.ld := rfl
@[simp] theorem finishStep_imemDraw : (finishStep inp s t).imemDraw = t.imemDraw := rfl

end finishStep

/-! ### An edge without a step is made of pushes, cell writes and pulses -/

/-- What a push with room, a cell write and the pulses each keep, an edge without a step keeps (R100). -/
theorem idleEdge_keeps {P : State → Prop}
    (hpush : ∀ w s, s.progLen.toNat < 4096 → P s → P (pushWord w s))
    (hwrite : ∀ a v s, P s → P (memWrite a v s))
    (hpulses : ∀ st ce le s, P s → P (s.setPulses st ce le))
    (inp : Inputs) {s : State} (hs : P s) : P (idleEdge inp s) := by
  have hp : P (acceptPush inp s) := by
    unfold acceptPush
    split
    · rename_i hroom
      simp only [Bool.and_eq_true, decide_eq_true_eq] at hroom
      exact hpush _ _ hroom.2 hs
    · exact hs
  have hd : P (acceptData inp (acceptPush inp s)) := by
    unfold acceptData
    split
    · exact hwrite _ _ _ hp
    · exact hp
  unfold idleEdge
  split
  · split
    · exact hpulses _ _ _ _ hd
    · exact hpulses _ _ _ _ hs
  · exact hpulses _ _ _ _ hs

/-! ### The invariants of the spec (R31) -/

theorem SpecInv.memWrite {s : State} (a : DataAddr) (v : Value) (h : SpecInv s) : SpecInv (memWrite a v s) :=
  ⟨h.pc_le, h.progLen_le, h.fault_halted, h.halted_started, h.run_not_halted, h.ready_fresh⟩

theorem SpecInv.setPulses {s : State} (st ce le : Bool) (h : SpecInv s) : SpecInv (s.setPulses st ce le) :=
  ⟨h.pc_le, h.progLen_le, h.fault_halted, h.halted_started, h.run_not_halted, h.ready_fresh⟩

theorem SpecInv.pushWord {s : State} (w : InstrWord) (hroom : s.progLen.toNat < 4096) (h : SpecInv s) :
    SpecInv (pushWord w s) where
  pc_le := h.pc_le
  progLen_le := by rw [pushWord_progLen, index_succ_toNat hroom]; exact hroom
  fault_halted := h.fault_halted
  halted_started := h.halted_started
  run_not_halted := h.run_not_halted
  ready_fresh := h.ready_fresh

theorem SpecInv.idleEdge {s : State} (inp : Inputs) (h : SpecInv s) : SpecInv (idleEdge inp s) :=
  idleEdge_keeps (fun w _ hroom hs => hs.pushWord w hroom) (fun a v _ hs => hs.memWrite a v)
    (fun st ce le _ hs => hs.setPulses st ce le) inp h

/-- A step leaves PC at most 4096: it executes below PROG_LEN, or keeps PC where the range check fails. -/
theorem SpecInv.performStep_pc_le {s t : State} (h : SpecInv s) (ht : performStep s = .next t) :
    t.pc.toNat ≤ 4096 := by
  rcases performStep_inv ht with ⟨hin, he⟩ | rfl
  · exact he.pc_le (hin.trans_le h.progLen_le)
  · exact h.pc_le

/-- A step that is performed only while not halted keeps the invariants: it sets STARTED, and a step that
does not halt leaves FAULT as it was, at NONE. -/
theorem SpecInv.finishStep {s t : State} (inp : Inputs) (h : SpecInv s) (hh : s.halted = false)
    (ht : performStep s = .next t) : SpecInv (finishStep inp s t) := by
  have he := performStep_next_effect ht
  have hpc := h.performStep_pc_le ht
  have hstarted : t.started = true := he.started_eq
  have hfault : t.fault ≠ .noFault → t.halted = true := by
    intro hf
    rcases he.halts_or_keeps with hhalt | ⟨_, hkeep⟩
    · exact hhalt
    · have := h.fault_halted (hkeep ▸ hf)
      simp [hh] at this
  exact
    { pc_le := hpc
      progLen_le := by simpa [he.progLen_eq] using h.progLen_le
      fault_halted := hfault
      halted_started := fun _ => hstarted
      run_not_halted := by simp
      ready_fresh := by simp [hstarted] }

/-! ### The form of the two memories (R26 to R28) -/

/-- The form of the memories depends on DMEM, IMEM and PROG_LEN only. -/
theorem StorageInv.congr {s t : State} (h : StorageInv s) (hd : t.dmem = s.dmem) (hi : t.imem = s.imem)
    (hp : t.progLen = s.progLen) : StorageInv t :=
  ⟨by rw [hd]; exact h.dmem_wf, by rw [hi, hp]; exact h.imem_listed⟩

theorem StorageInv.memWrite {s : State} (a : DataAddr) (v : Value) (h : StorageInv s) :
    StorageInv (memWrite a v s) :=
  ⟨memWrite_wf a v s h.dmem_wf, h.imem_listed⟩

/-- An index listed in IMEM is below PROG_LEN. -/
theorem StorageInv.index_lt {s : State} (h : StorageInv s) {c : Nat × InstrWord} (hc : c ∈ s.imem) :
    c.1 < s.progLen.toNat := by
  have : c.1 ∈ s.imem.map Prod.fst := List.mem_map_of_mem hc
  rwa [h.imem_listed, List.mem_range] at this

/-- A push with room puts its word above every listed one, at the index PROG_LEN (R107). -/
theorem StorageInv.pushWord_imem {s : State} (w : InstrWord) (hroom : s.progLen.toNat < 4096)
    (h : StorageInv s) : (pushWord w s).imem = s.imem ++ [(s.progLen.toNat, w)] := by
  rw [Machine.pushWord_imem, lowBits_toNat hroom]
  exact Cells.insert_above _ _ _ fun c hc => h.index_lt hc

theorem StorageInv.pushWord {s : State} (w : InstrWord) (hroom : s.progLen.toNat < 4096)
    (h : StorageInv s) : StorageInv (pushWord w s) where
  dmem_wf := h.dmem_wf
  imem_listed := by
    rw [h.pushWord_imem w hroom, pushWord_progLen, index_succ_toNat hroom, List.range_succ,
      List.map_append, h.imem_listed]
    rfl

theorem StorageInv.idleEdge {s : State} (inp : Inputs) (h : StorageInv s) : StorageInv (idleEdge inp s) :=
  idleEdge_keeps (fun w _ hroom hs => hs.pushWord w hroom) (fun a v _ hs => hs.memWrite a v)
    (fun _ _ _ _ hs => hs.congr rfl rfl rfl) inp h

/-- A step writes no IMEM word and no PROG_LEN, and at most one cell. -/
theorem StorageInv.finishStep {s t : State} (inp : Inputs) (h : StorageInv s)
    (ht : performStep s = .next t) : StorageInv (finishStep inp s t) := by
  have he := performStep_next_effect ht
  exact ⟨he.dmem_wf h.dmem_wf, by simpa [he.imem_eq, he.progLen_eq] using h.imem_listed⟩

/-! ### The whole invariant -/

/-- The reset values meet the invariant, whatever draw the unspecified words are at (R30). -/
theorem machineInv_resetValues (n : Nat) : MachineInv { State.reset with imemDraw := n } where
  spec :=
    { pc_le := Nat.zero_le _
      progLen_le := Nat.zero_le _
      fault_halted := fun h => absurd rfl h
      halted_started := nofun
      run_not_halted := nofun
      ready_fresh := fun _ => ⟨rfl, rfl, rfl⟩ }
  storage := ⟨Memory.wf_nil, rfl⟩

/-- Settles O2: the reset values, at draw 0. -/
theorem resetStateMeetsInvariant : Obligations.ResetStateMeetsInvariant := machineInv_resetValues 0

/-- Settles O28, by the three things an edge can be: a reset, a step, or neither. -/
theorem edgeKeepsInvariant : Obligations.EdgeKeepsInvariant := by
  intro inp s t h ht
  rcases edge_inv ht with ⟨_, rfl⟩ | ⟨_, hs, u, hu, rfl⟩ | ⟨_, _, rfl⟩
  · exact machineInv_resetValues _
  · exact ⟨h.spec.finishStep inp (stepsAt_not_halted hs) hu, h.storage.finishStep inp hu⟩
  · exact ⟨h.spec.idleEdge inp, h.storage.idleEdge inp⟩

/-- Settles O27: `step` is the edge with `step_req` alone. -/
theorem stepKeepsInvariant : Obligations.StepKeepsInvariant :=
  fun s t h ht => edgeKeepsInvariant Inputs.step s t h ht

/-- The invariant holds at reset and every edge keeps it, so it holds in every reachable state. -/
theorem Reachable.machineInv {s : State} (h : Reachable s) : MachineInv s := by
  induction h with
  | reset => exact resetStateMeetsInvariant
  | edge inp s t _ ht ih => exact edgeKeepsInvariant inp s t ih ht

/-- Settles O29: the spec's part of the machine's invariant. -/
theorem reachableStatesMeetSpecInvariants : Obligations.ReachableStatesMeetSpecInvariants := by
  intro s h
  have hs := h.machineInv.spec
  exact ⟨hs.pc_le, hs.progLen_le, hs.fault_halted, hs.halted_started, hs.run_not_halted, hs.ready_fresh⟩

end Sys2Proof.Machine

namespace Sys2Proof

/-! ### Decoding by the value of the opcode field (R55) -/

section
variable {w : InstrWord}

theorem decode_of_opcode_zero (h : w.toNat / 4096 = 0) : decode w = .load (xField w) := by
  simp [decode, opField_toNat, h]
theorem decode_of_opcode_one (h : w.toNat / 4096 = 1) : decode w = .store (xField w) := by
  simp [decode, opField_toNat, h]
theorem decode_of_opcode_two (h : w.toNat / 4096 = 2) : decode w = .add (xField w) := by
  simp [decode, opField_toNat, h]
theorem decode_of_opcode_three (h : w.toNat / 4096 = 3) : decode w = .sub (xField w) := by
  simp [decode, opField_toNat, h]
theorem decode_of_opcode_four (h : w.toNat / 4096 = 4) : decode w = .jump (xField w) := by
  simp [decode, opField_toNat, h]
theorem decode_of_opcode_five (h : w.toNat / 4096 = 5) : decode w = .jge (xField w) := by
  simp [decode, opField_toNat, h]
theorem decode_of_opcode_six (h : w.toNat / 4096 = 6) : decode w = .jne (xField w) := by
  simp [decode, opField_toNat, h]
theorem decode_of_opcode_seven (h : w.toNat / 4096 = 7) : decode w = .stop := by
  simp [decode, opField_toNat, h]

/-- From opcode 8 on no legal row fits (R56). -/
theorem decode_of_opcode_ge_eight (h : 8 ≤ w.toNat / 4096) : decode w = .illegal w := by
  unfold decode
  rw [opField_toNat]
  split
  iterate 8 omega
  rfl

end

end Sys2Proof

namespace Sys2Proof.Machine

/-! ### The branch condition unit (R20, R80) -/

theorem condGe_iff (v : Value) : condGe v = true ↔ 0 ≤ v.toInt := by
  have hmsb : condGe v = !v.msb := by simp [condGe, BitVec.msb_eq_getLsbD_last]
  simp [hmsb, BitVec.msb_eq_toInt]

theorem condNz_iff (v : Value) : condNz v = true ↔ v.toInt ≠ 0 := by
  have hzero : v.toInt = 0 ↔ v = 0x000#12 := by rw [← BitVec.toInt_inj]; simp
  simp [condNz, hzero]

theorem accNonNegative_eq_condGe (s : State) : accNonNegative s = condGe s.acc := by
  rw [Bool.eq_iff_iff, condGe_iff, accNonNegative, decide_eq_true_eq]

theorem exec_jge_eq_branchIf (x : Operand) (s : State) :
    exec (.jge x) s = .next (branchIf (condGe s.acc) x s) := by
  rw [← accNonNegative_eq_condGe]
  rfl

/-- What `taken` decides, for whichever instruction computes it (R81). -/
theorem branchIf_follows_taken (taken : Bool) (x : Operand) (s : State) :
    (taken = true → ∃ y, some x = some y ∧ (branchIf taken x s).pc = zext13 y) ∧
    (taken = false → (branchIf taken x s).pc = s.pc + 1#13 ∨
      (branchIf taken x s).halted = true ∧ (branchIf taken x s).pc = s.pc) := by
  cases taken with
  | true => exact ⟨fun _ => ⟨x, rfl, rfl⟩, nofun⟩
  | false => exact ⟨nofun, fun _ => .inl rfl⟩

/-- Settles O38: the instructions, by what drives their `taken` (R80). -/
theorem branchUnitAgreesWithSignedTests : Obligations.BranchUnitAgreesWithSignedTests := by
  refine ⟨fun v => ⟨condGe_iff v, condNz_iff v⟩, fun i s t ht => ?_⟩
  cases i with
  | load x | store x | add x | sub x =>
    cases ht
    exact ⟨nofun, fun _ => .inl rfl⟩
  | jump x =>
    cases ht
    exact branchIf_follows_taken true x s
  | jge x =>
    cases ht.symm.trans (exec_jge_eq_branchIf x s)
    exact branchIf_follows_taken (condGe s.acc) x s
  | jne x =>
    cases ht
    exact branchIf_follows_taken (condNz s.acc) x s
  | stop | illegal w =>
    cases ht
    exact ⟨nofun, fun _ => .inr ⟨rfl, rfl⟩⟩

/-! ### The branches, taken and not taken (R96, R97) -/

section
variable {s : State} (x : Operand)

theorem exec_jge_of_nonneg (h : 0 ≤ s.acc.toInt) : exec (.jge x) s = .next (s.setPc (jumpTarget x)) := by
  simp [accNonNegative, h]
theorem exec_jge_of_neg (h : ¬ 0 ≤ s.acc.toInt) : exec (.jge x) s = .next s.incPc := by
  simp [accNonNegative, h]
theorem exec_jne_of_ne_zero (h : s.acc ≠ 0x000#12) : exec (.jne x) s = .next (s.setPc (jumpTarget x)) := by
  simp [accNonZero, h]
theorem exec_jne_of_zero (h : s.acc = 0x000#12) : exec (.jne x) s = .next s.incPc := by
  simp [accNonZero, h]

end

/-! ### PC after a step (R18) -/

/-- A step that is performed leaves the PC of `performStep`: its bookkeeping writes none. -/
theorem step_pc_of_performStep {s t u : State} (hh : s.halted = false) (ht : step s = .next t)
    (hu : performStep s = .next u) : t.pc = u.pc := by
  cases ht.symm.trans (step_of_running hh hu)
  rfl

/-- Inside the program PC after a step is PC after the fetched instruction. -/
theorem step_pc_of_exec {s t u : State} {i : Instr} (hh : s.halted = false) (ht : step s = .next t)
    (hin : s.pc.toNat < s.progLen.toNat) (hi : decode (ifetch s) = i)
    (hu : exec i s.markStarted = .next u) : t.pc = u.pc :=
  step_pc_of_performStep hh ht <| by rw [performStep_of_fetched (fetched_of_inProgram hin), hi, hu]

/-- A jump to the operand field of a word sets PC to the word modulo 4096 (R94). -/
theorem jumpTarget_xField_toNat (w : InstrWord) : (jumpTarget (xField w)).toNat = w.toNat % 4096 := by
  rw [jumpTarget_toNat, xField_toNat]

/-- Settles O25, clause by clause: the range check, then the opcode of the word at PC. -/
theorem stepAdvancesPc : Obligations.StepAdvancesPc := by
  intro s t hh ht w op
  refine ⟨fun hout => ?_, fun hin => ⟨fun h => ?_, fun h => ?_, fun h => ?_, fun h => ?_, fun h => ?_,
    fun hl => ⟨incPc_toNat hin hl, by omega⟩⟩⟩
  · exact (step_pc_of_performStep hh ht (performStep_of_none (fetched_of_outside hout))).trans rfl
  · have hop : op = 0 ∨ op = 1 ∨ op = 2 ∨ op = 3 := by omega
    rcases hop with hop | hop | hop | hop
    · exact (step_pc_of_exec hh ht hin (decode_of_opcode_zero hop) (exec_load _ _)).trans rfl
    · exact (step_pc_of_exec hh ht hin (decode_of_opcode_one hop) (exec_store _ _)).trans rfl
    · exact (step_pc_of_exec hh ht hin (decode_of_opcode_two hop) (exec_add _ _)).trans rfl
    · exact (step_pc_of_exec hh ht hin (decode_of_opcode_three hop) (exec_sub _ _)).trans rfl
  · rw [step_pc_of_exec hh ht hin (decode_of_opcode_four h) (exec_jump _ _)]
    exact jumpTarget_xField_toNat w
  · have hdec := decode_of_opcode_five h
    split
    · rw [step_pc_of_exec hh ht hin hdec (exec_jge_of_nonneg _ ‹_›)]
      exact jumpTarget_xField_toNat w
    · exact (step_pc_of_exec hh ht hin hdec (exec_jge_of_neg _ ‹_›)).trans rfl
  · have hdec := decode_of_opcode_six h
    split
    · rw [step_pc_of_exec hh ht hin hdec (exec_jne_of_ne_zero _ ‹_›)]
      exact jumpTarget_xField_toNat w
    · exact (step_pc_of_exec hh ht hin hdec (exec_jne_of_zero _ (not_not.mp ‹_›))).trans rfl
  · rcases h.eq_or_lt with hop | hop
    · exact (step_pc_of_exec hh ht hin (decode_of_opcode_seven hop.symm) (exec_stop _)).trans rfl
    · exact (step_pc_of_exec hh ht hin (decode_of_opcode_ge_eight hop) (exec_illegal _ _)).trans rfl

/-! ### Fetch under the invariant (R27) -/

/-- Settles O30: PC is below PROG_LEN, so its index is listed, and the listed word is what is read. -/
theorem fetchReadsOnlyPushedWords : Obligations.FetchReadsOnlyPushedWords := by
  intro s hs hin
  have haddr : (imemAddr s).toNat = s.pc.toNat := lowBits_toNat (hin.trans_le hs.spec.progLen_le)
  have hkey : s.pc.toNat ∈ s.imem.map Prod.fst := by
    rw [hs.storage.imem_listed]; exact List.mem_range.mpr hin
  obtain ⟨w, hw, hmem⟩ := Cells.lookup_of_key hkey
  have hfetch : ∀ d : Nat, ifetch { s with imemDraw := d } = w := by
    intro d
    change (Cells.lookup (imemAddr s).toNat s.imem).getD _ = w
    rw [haddr, hw]
    rfl
  rw [show ifetch s = w from hfetch s.imemDraw]
  exact ⟨hmem, hfetch⟩

/-! ### STARTED, PHASE and RUNMODE at an edge without reset (R23 to R25) -/

/-- `edge_inv` where `rst` is 0, told apart by the output `stepped` (R111). -/
theorem edge_inv_of_noReset {inp : Inputs} {s t : State} (hr : inp.rst = false) (h : edge inp s = .next t) :
    (t.stepped = true ∧ ∃ u, performStep s = .next u ∧ t = finishStep inp s u) ∨
    (t.stepped = false ∧ t = idleEdge inp s) := by
  rcases edge_inv h with ⟨hr', _⟩ | ⟨_, _, u, hu, rfl⟩ | ⟨_, _, rfl⟩
  · simp [hr] at hr'
  · exact .inl ⟨rfl, u, hu, rfl⟩
  · exact .inr ⟨idleEdge_stepped inp s, rfl⟩

theorem phase_ne_ready_of_started {s : State} (h : s.started = true) : phase s ≠ .ready := by
  simp [phase_eq_ready, h]

theorem performStep_started {s t : State} (h : performStep s = .next t) : t.started = true :=
  (performStep_next_effect h).started_eq

/-- PHASE is computed from HALTED and STARTED, which an edge without a step keeps (R23). -/
theorem phase_idleEdge (inp : Inputs) (s : State) : phase (idleEdge inp s) = phase s := by
  obtain ⟨_, _, hhalted, _, hstarted, _⟩ := idleEdge_registers inp s
  simp only [phase, hhalted, hstarted]

/-- Settles O32: a step sets STARTED, an edge without a step keeps STARTED and PHASE. -/
theorem startedIsSetByStepsAndClearedByResetOnly : Obligations.StartedIsSetByStepsAndClearedByResetOnly := by
  intro inp s t hr h
  rcases edge_inv_of_noReset hr h with ⟨hst, u, hu, rfl⟩ | ⟨hst, rfl⟩
  · have hstarted : (finishStep inp s u).started = true := by rw [finishStep_started, performStep_started hu]
    have hphase := phase_ne_ready_of_started hstarted
    exact ⟨fun _ => ⟨hstarted, hphase⟩, by simp, fun _ => hphase⟩
  · obtain ⟨_, _, _, _, hstarted, _⟩ := idleEdge_registers inp s
    refine ⟨by simp [hst], fun _ => hstarted, ?_⟩
    rw [phase_idleEdge]
    exact id

/-- Settles O47: a step computes RUNMODE from RUNMODE, `run_req` and its own halt; an edge without a step
keeps it. -/
theorem runmodeSetByRunAndClearedByHalt : Obligations.RunmodeSetByRunAndClearedByHalt := by
  intro inp s t hr h
  rcases edge_inv_of_noReset hr h with ⟨hst, u, hu, rfl⟩ | ⟨hst, rfl⟩
  · refine ⟨fun _ => ?_, by simp⟩
    simp only [finishStep_runmode, finishStep_halted, Bool.and_eq_true, Bool.or_eq_true,
      Bool.not_eq_true', and_comm]
  · obtain ⟨_, _, _, _, _, hrun, _⟩ := idleEdge_registers inp s
    exact ⟨by simp [hst], fun _ => hrun⟩

/-! ### Canonical data memories (R28) -/

/-- In a rising list every listed pair is what a lookup of its key finds. -/
theorem Cells.lookup_eq_some_iff {α : Type} {m : List (Nat × α)} (h : (m.map Prod.fst).Pairwise (· < ·))
    (a : Nat) (v : α) : Cells.lookup a m = some v ↔ (a, v) ∈ m := by
  induction m with
  | nil => simp [Cells.lookup]
  | cons d m ih =>
    obtain ⟨k, u⟩ := d
    rw [List.map_cons, List.pairwise_cons] at h
    obtain ⟨hk, hm⟩ := h
    by_cases hak : a = k
    · have hnot : (a, v) ∉ m := fun hmem => by
        have := hk _ (List.mem_map_of_mem hmem)
        simp only at this
        omega
      simp [Cells.lookup, hak, hak ▸ hnot, eq_comm]
    · simp [Cells.lookup, hak, ih hm]

/-- Rising lists with the same pairs are one list. -/
theorem Cells.eq_of_lookup_eq {α : Type} {m n : List (Nat × α)} (hm : (m.map Prod.fst).Pairwise (· < ·))
    (hn : (n.map Prod.fst).Pairwise (· < ·)) (h : ∀ a, Cells.lookup a m = Cells.lookup a n) : m = n := by
  have hmem : ∀ c, c ∈ m ↔ c ∈ n := fun ⟨a, v⟩ => by
    rw [← Cells.lookup_eq_some_iff hm, ← Cells.lookup_eq_some_iff hn, h]
  rw [List.pairwise_map] at hm hn
  have hnodup : ∀ {l : List (Nat × α)}, l.Pairwise (fun c d => c.1 < d.1) → l.Nodup := fun hl =>
    hl.imp fun hlt heq => by simp [heq] at hlt
  have hperm : m.Perm n := (List.perm_ext_iff_of_nodup (hnodup hm) (hnodup hn)).mpr hmem
  exact hperm.eq_of_pairwise (fun c d _ _ hcd hdc => absurd hcd hdc.asymm) hm hn

/-- A canonical memory lists a cell exactly when it does not read as an unlisted one. -/
theorem Memory.lookup_of_wf {m : Memory} (hm : Memory.wf m) (a : DataAddr) :
    Cells.lookup a.toNat m = if Memory.read m a = Memory.unlisted then none else some (Memory.read m a) := by
  cases hl : Cells.lookup a.toNat m with
  | none => simp [Memory.read, hl]
  | some v =>
    have hv : v ≠ Memory.unlisted := (hm.2 _ ((Cells.lookup_eq_some_iff hm.1 _ _).mp hl)).2
    simp [Memory.read, hl, hv]

/-- A canonical memory lists nothing outside the 4096 cells. -/
theorem Memory.lookup_outside {m : Memory} (hm : Memory.wf m) {a : Nat} (ha : 4096 ≤ a) :
    Cells.lookup a m = none := by
  by_contra hl
  obtain ⟨v, hv⟩ := Option.ne_none_iff_exists'.mp hl
  have : a < 4096 := (hm.2 _ ((Cells.lookup_eq_some_iff hm.1 _ _).mp hv)).1
  omega

/-- So reading alike at every address is being listed alike at every number. -/
theorem Memory.lookup_eq_of_read_eq {m n : Memory} (hm : Memory.wf m) (hn : Memory.wf n)
    (h : ∀ a, Memory.read m a = Memory.read n a) (a : Nat) : Cells.lookup a m = Cells.lookup a n := by
  by_cases ha : a < 4096
  · have hcell : (BitVec.ofNat 12 a).toNat = a := Nat.mod_eq_of_lt ha
    rw [← hcell, Memory.lookup_of_wf hm, Memory.lookup_of_wf hn, h]
  · rw [Memory.lookup_outside hm (by omega), Memory.lookup_outside hn (by omega)]

/-- Settles O41: lists that read alike are looked up alike, and rising lists are fixed by their lookups. -/
theorem canonicalMemoriesReadingAlikeAreEqual : Obligations.CanonicalMemoriesReadingAlikeAreEqual :=
  fun _ _ hm hn h => Cells.eq_of_lookup_eq hm.1 hn.1 (Memory.lookup_eq_of_read_eq hm hn h)

/-! ### Reset values and outputs (R22, R23, R29, R30) -/

/-- Settles O1: each register by its reset value; neither memory lists anything. -/
theorem resetStateHoldsSpecValues : Obligations.ResetStateHoldsSpecValues :=
  ⟨rfl, rfl, rfl, rfl, rfl, rfl, rfl, Memory.read_nil, fun _ => rfl⟩

theorem FaultCause.code_ne_three (c : FaultCause) : c.code ≠ 3#2 := by cases c <;> decide

theorem FaultCause.code_ne_zero_iff (c : FaultCause) : c.code ≠ 0#2 ↔ c ≠ .noFault := by
  cases c <;> decide

theorem Phase.code_ne_three (p : Phase) : p.code ≠ 3#2 := by cases p <;> decide

theorem Phase.code_eq_two_iff (p : Phase) : p.code = 2#2 ↔ p = .halted := by cases p <;> decide

theorem phase_eq_halted {s : State} : phase s = .halted ↔ s.halted = true := by
  cases hh : s.halted <;> cases hst : s.started <;> simp [phase, hh, hst]

/-- Settles O33: the codes of the enumerations, then PHASE HALTED as HALTED, then R31. -/
theorem outputsNeverShowReservedCodes : Obligations.OutputsNeverShowReservedCodes := by
  intro s
  have hphase : (phase s).code = 2#2 ↔ s.halted = true := by rw [Phase.code_eq_two_iff, phase_eq_halted]
  refine ⟨FaultCause.code_ne_three _, Phase.code_ne_three _, hphase, fun hs =>
    ⟨hs.progLen_le, hs.pc_le, fun hf => hphase.mpr (hs.fault_halted ?_)⟩⟩
  exact (FaultCause.code_ne_zero_iff _).mp hf

end Sys2Proof.Machine

/-! ## The memory family: the data access of a step, and what a cell reads as after edges

Statements about the memory signals go through the control row of the fetched word; statements about cells
go through the one write of an edge, `dataWrite`. -/

namespace Sys2Proof.Machine

/-! ### The data access of the fetched word (R36, R49, R82) -/

/-- The operand field as the statements write it (R53). -/
theorem xField_eq_ofNat (w : InstrWord) : xField w = BitVec.ofNat 12 (w.toNat % 4096) := by
  rw [← xField_toNat, BitVec.ofNat_toNat, BitVec.setWidth_eq]

/-- The data side of the memory interface: whether a step reads a cell, whether it writes one, and which. -/
structure DataSignals (s : State) (re we : Bool) (addr : Option DataAddr) : Prop where
  re_eq : (memSignals s).dmemRe = re
  we_eq : (memSignals s).dmemWe = we
  addr_eq : (memSignals s).dmemAddr = addr

/-- The data signals are read off the control row of what was fetched; the address is driven where the row
has an access. -/
theorem dataSignals_of_controlRow {s : State} {d : Option Instr} {re we : Bool} (hd : fetched s = d)
    (hre : (controlRow d (condGe s.acc) (condNz s.acc)).dmemRe = re)
    (hwe : (controlRow d (condGe s.acc) (condNz s.acc)).dmemWe = we) :
    DataSignals s re we (if re || we then d.bind operandOf else none) := by
  subst hd hre hwe
  exact ⟨rfl, rfl, rfl⟩

section
variable {s : State} {w : InstrWord}

theorem dataSignals_outside (h : s.progLen.toNat ≤ s.pc.toNat) : DataSignals s false false none :=
  dataSignals_of_controlRow (fetched_of_outside h) rfl rfl

theorem dataSignals_of_decode {i : Instr} {re we : Bool} (hf : fetched s = some (decode w)) (hi : decode w = i)
    (hre : (controlRow (some i) (condGe s.acc) (condNz s.acc)).dmemRe = re)
    (hwe : (controlRow (some i) (condGe s.acc) (condNz s.acc)).dmemWe = we) :
    DataSignals s re we (if re || we then operandOf i else none) :=
  dataSignals_of_controlRow (hi ▸ hf) hre hwe

/-- LOAD, ADD and SUB read the cell X. -/
theorem dataSignals_of_reading (hf : fetched s = some (decode w))
    (hop : w.toNat / 4096 = 0 ∨ w.toNat / 4096 = 2 ∨ w.toNat / 4096 = 3) :
    DataSignals s true false (some (xField w)) := by
  rcases hop with hop | hop | hop
  · exact dataSignals_of_decode hf (decode_of_opcode_zero hop) rfl rfl
  · exact dataSignals_of_decode hf (decode_of_opcode_two hop) rfl rfl
  · exact dataSignals_of_decode hf (decode_of_opcode_three hop) rfl rfl

/-- STORE writes the cell X. -/
theorem dataSignals_of_store (hf : fetched s = some (decode w)) (hop : w.toNat / 4096 = 1) :
    DataSignals s false true (some (xField w)) :=
  dataSignals_of_decode hf (decode_of_opcode_one hop) rfl rfl

/-- The jumps, STOP and the illegal words drive no data address. -/
theorem dataSignals_of_noAccess (hf : fetched s = some (decode w)) (hop : 4 ≤ w.toNat / 4096) :
    DataSignals s false false none := by
  have hops : w.toNat / 4096 = 4 ∨ w.toNat / 4096 = 5 ∨ w.toNat / 4096 = 6 ∨ w.toNat / 4096 = 7 ∨
      8 ≤ w.toNat / 4096 := by omega
  rcases hops with hop | hop | hop | hop | hop
  · exact dataSignals_of_decode hf (decode_of_opcode_four hop) rfl rfl
  · exact dataSignals_of_decode hf (decode_of_opcode_five hop) rfl rfl
  · exact dataSignals_of_decode hf (decode_of_opcode_six hop) rfl rfl
  · exact dataSignals_of_decode hf (decode_of_opcode_seven hop) rfl rfl
  · exact dataSignals_of_decode hf (decode_of_opcode_ge_eight hop) rfl rfl

end

/-- Settles O37, by the range check and then the opcode: a reading word, STORE, or a word without a data
access. -/
theorem stepMakesAtMostOneDataAccess : Obligations.StepMakesAtMostOneDataAccess := by
  intro s inside w op
  rw [← xField_eq_ofNat]
  by_cases hin : inside
  · have hf : fetched s = some (decode w) := fetched_of_inProgram hin
    have hop : (op = 0 ∨ op = 2 ∨ op = 3) ∨ op = 1 ∨ 4 ≤ op := by omega
    rcases hop with hop | hop | hop
    · obtain ⟨hre, hwe, haddr⟩ := dataSignals_of_reading hf hop
      have hne : op ≠ 1 := by omega
      simp [hre, hwe, haddr, hin, hop, hne]
    · obtain ⟨hre, hwe, haddr⟩ := dataSignals_of_store hf hop
      simp [hre, hwe, haddr, hin, hop]
    · obtain ⟨hre, hwe, haddr⟩ := dataSignals_of_noAccess hf hop
      have hread : ¬ (op = 0 ∨ op = 2 ∨ op = 3) := by omega
      have hwrite : op ≠ 1 := by omega
      simp [hre, hwe, haddr, hread, hwrite]
  · obtain ⟨hre, hwe, haddr⟩ := dataSignals_outside (Nat.le_of_not_lt hin)
    simp [hre, hwe, haddr, hin]

/-! ### The one write of an edge (R41, R44) -/

/-- What cell `a`, holding `v`, holds after a write of at most one cell. -/
def cellAfter (a : DataAddr) (v : Value) : Option (DataAddr × Value) → Value
  | some (b, u) => if b = a then u else v
  | none => v

theorem memRead_memWrite_eq_cellAfter (a b : DataAddr) (u : Value) (s : State) :
    memRead a (memWrite b u s) = cellAfter a (memRead a s) (some (b, u)) := by
  simp only [memRead_memWrite, cellAfter, eq_comm]

theorem storedCell_markStarted (i : Instr) (s : State) : storedCell i s.markStarted = storedCell i s := by
  cases i <;> rfl

/-- STORE writes its cell; every other instruction keeps data memory. -/
theorem exec_memRead {i : Instr} {s t : State} (h : exec i s = .next t) (a : DataAddr) :
    memRead a t = cellAfter a (memRead a s) (storedCell i s) := by
  cases i with
  | store x =>
    cases h
    exact memRead_memWrite_eq_cellAfter a x s.acc s
  | jge x | jne x =>
    cases h
    refine memRead_congr ?_ a
    unfold branchIf
    split <;> rfl
  | load x | add x | sub x | jump x | stop | illegal w =>
    cases h
    rfl

/-- A step writes the cell its fetched instruction stores to; the range check that fails writes none. -/
theorem performStep_memRead {s t : State} (h : performStep s = .next t) (a : DataAddr) :
    memRead a t = cellAfter a (memRead a s) ((fetched s).bind fun i => storedCell i s) := by
  cases hf : fetched s with
  | none =>
    cases h.symm.trans (performStep_of_none hf)
    rfl
  | some i =>
    rw [performStep_of_fetched hf] at h
    rw [exec_memRead h, storedCell_markStarted]
    rfl

theorem acceptData_memRead (inp : Inputs) (s : State) (a : DataAddr) :
    memRead a (acceptData inp s) = cellAfter a (memRead a s)
      (if inp.dmemLoadWe then some (inp.dmemLoadAddr, inp.dmemLoadData) else none) := by
  unfold acceptData
  split
  · exact memRead_memWrite_eq_cellAfter a _ _ s
  · rfl

/-- In READY an edge without a step does what its loads do to data memory; with no load that is nothing. -/
theorem idleEdge_dmem_of_ready {inp : Inputs} {s : State} (h : phase s = .ready) :
    (idleEdge inp s).dmem = (acceptData inp (acceptPush inp s)).dmem := by
  by_cases hld : inp.ld = true
  · simp [idleEdge, hld, h]
  · have hnone : inp.imemPush = false ∧ inp.dmemLoadWe = false := by simpa [Inputs.ld] using hld
    obtain ⟨hpush, hdata⟩ := hnone
    simp [idleEdge, hld, acceptData, acceptPush, hpush, hdata]

/-- An edge without a step writes the cell of an accepted data load: in READY, whether or not a word is
pushed with it (R106, R108). -/
theorem idleEdge_memRead (inp : Inputs) (s : State) (a : DataAddr) :
    memRead a (idleEdge inp s) = cellAfter a (memRead a s)
      (if inp.dmemLoadWe && decide (phase s = .ready) then some (inp.dmemLoadAddr, inp.dmemLoadData)
       else none) := by
  by_cases hready : phase s = .ready
  · rw [memRead_congr (idleEdge_dmem_of_ready hready), acceptData_memRead,
      memRead_congr (acceptPush_dmem inp s)]
    simp [hready]
  · rw [idleEdge_not_ready hready]
    simp [hready, cellAfter, memRead]

/-- After an edge a cell holds 0 where the edge is a reset, else what the edge's one write leaves in it. -/
theorem edge_memRead {inp : Inputs} {s t : State} (h : edge inp s = .next t) (a : DataAddr) :
    memRead a t = if inp.rst then 0x000#12 else cellAfter a (memRead a s) (dataWrite inp s) := by
  rcases edge_inv h with ⟨hr, rfl⟩ | ⟨hr, hs, u, hu, rfl⟩ | ⟨hr, hs, rfl⟩
  · rw [if_pos hr]
    rfl
  · have hkeep : memRead a (finishStep inp s u) = memRead a u := memRead_congr (finishStep_dmem inp s u) a
    rw [hkeep, performStep_memRead hu]
    simp [hr, dataWrite, hs]
  · rw [idleEdge_memRead]
    simp [hr, dataWrite, hs]

/-- Every edge answers a next state (R100). -/
theorem edge_total (inp : Inputs) (s : State) : ∃ t, edge inp s = .next t := by
  rcases edge_cases inp s with ⟨_, h⟩ | ⟨_, _, _, _, h⟩ | ⟨_, _, h⟩
  all_goals exact ⟨_, h⟩

/-! ### The value most recently given to a cell (R44) -/

/-- After one edge the value most recently given goes on from the edge's next state. -/
theorem recentValue_cons {inp : Inputs} {s t : State} (h : edge inp s = .next t) (a : DataAddr) (v : Value)
    (rest : List Inputs) :
    recentValue a v (inp :: rest) s =
      recentValue a (if inp.rst then 0x000#12 else cellAfter a v (dataWrite inp s)) rest t := by
  rw [recentValue, h]
  rfl

/-- Settles O39, by induction on the edges: each leaves in the cell what `recentValue` goes on with. -/
theorem readReturnsMostRecentWrite : Obligations.ReadReturnsMostRecentWrite := by
  intro ins
  induction ins with
  | nil =>
    intro s t a h
    cases h
    rfl
  | cons inp rest ih =>
    intro s t a h
    obtain ⟨u, hu⟩ := edge_total inp s
    rw [edges_cons hu] at h
    rw [ih u t a h, recentValue_cons hu, edge_memRead hu]

end Sys2Proof.Machine

/-! ## The encoding family: decoder and encoder, the opcode map, the assembler, and loading an image

Statements about every word go through the nine values of its opcode field; statements about the assembler go
through `Classified`, what a classified line is, and `assembleLines_cons_eq_ok`, what a good line does. -/

namespace Sys2Proof

/-! ### The opcode field of a word and of a packed word (R51, R55) -/

section
variable (w : InstrWord)

/-- The opcode field is one of the seven with an operand, STOP's, or illegal. -/
theorem opcode_cases : w.toNat / 4096 = 0 ∨ w.toNat / 4096 = 1 ∨ w.toNat / 4096 = 2 ∨ w.toNat / 4096 = 3 ∨
    w.toNat / 4096 = 4 ∨ w.toNat / 4096 = 5 ∨ w.toNat / 4096 = 6 ∨ w.toNat / 4096 = 7 ∨
    8 ≤ w.toNat / 4096 := by omega

/-- An illegal word is one with bit 15 set (R56). -/
theorem getLsbD_fifteen_iff : w.getLsbD 15 = true ↔ 8 ≤ w.toNat / 4096 := by
  have hw : w.toNat < 65536 := w.isLt
  rw [BitVec.getLsbD, Nat.testBit_eq_decide_div_mod_eq, decide_eq_true_iff]
  omega

variable {w}

/-- A word is its operand field packed with the opcode it has. -/
theorem packWord_xField {op : BitVec 4} (h : w.toNat / 4096 = op.toNat) : packWord op (xField w) = w := by
  have hop : opField w = op := BitVec.eq_of_toNat_eq ((opField_toNat w).trans h)
  rw [← hop, packWord_fields]

end

theorem packWord_toNat (op : BitVec 4) (x : Operand) : (packWord op x).toNat = op.toNat * 0x1000 + x.toNat := by
  rw [packWord, BitVec.toNat_append, ← Nat.shiftLeft_add_eq_or_of_lt x.isLt, Nat.shiftLeft_eq]

/-! ### Decoding and encoding (R55, R59) -/

theorem decode_encode {i : Instr} (h : i.wellFormed = true) : decode (encode i) = i := by
  cases i with
  | load x | store x | add x | sub x | jump x | jge x | jne x => exact decode_packWord _ x
  | stop => rfl
  | illegal w => exact decode_of_opcode_ge_eight ((getLsbD_fifteen_iff w).mp h)

theorem decode_wellFormed (w : InstrWord) : (decode w).wellFormed = true := by
  rcases opcode_cases w with h | h | h | h | h | h | h | h | h
  · rw [decode_of_opcode_zero h]; rfl
  · rw [decode_of_opcode_one h]; rfl
  · rw [decode_of_opcode_two h]; rfl
  · rw [decode_of_opcode_three h]; rfl
  · rw [decode_of_opcode_four h]; rfl
  · rw [decode_of_opcode_five h]; rfl
  · rw [decode_of_opcode_six h]; rfl
  · rw [decode_of_opcode_seven h]; rfl
  · rw [decode_of_opcode_ge_eight h]; exact (getLsbD_fifteen_iff w).mpr h

/-- STOP's operand bits are the only ones decoding loses. -/
theorem encode_decode {w : InstrWord} (hstop : w.toNat / 4096 ≠ 7) : encode (decode w) = w := by
  rcases opcode_cases w with h | h | h | h | h | h | h | h | h
  · rw [decode_of_opcode_zero h]; exact packWord_xField h
  · rw [decode_of_opcode_one h]; exact packWord_xField h
  · rw [decode_of_opcode_two h]; exact packWord_xField h
  · rw [decode_of_opcode_three h]; exact packWord_xField h
  · rw [decode_of_opcode_four h]; exact packWord_xField h
  · rw [decode_of_opcode_five h]; exact packWord_xField h
  · rw [decode_of_opcode_six h]; exact packWord_xField h
  · exact absurd h hstop
  · rw [decode_of_opcode_ge_eight h]; rfl

/-- An encoding fits exactly the row of its instruction (R54). -/
theorem encode_fitsRow (i : Instr) : Laws.EncodingFitsRow.Statement i := by
  cases i with
  | load x => exact Laws.EncodingFitsRow.load x
  | store x => exact Laws.EncodingFitsRow.store x
  | add x => exact Laws.EncodingFitsRow.add x
  | sub x => exact Laws.EncodingFitsRow.sub x
  | jump x => exact Laws.EncodingFitsRow.jump x
  | jge x => exact Laws.EncodingFitsRow.jge x
  | jne x => exact Laws.EncodingFitsRow.jne x
  | stop => exact Laws.EncodingFitsRow.stop
  | illegal w => exact Laws.EncodingFitsRow.illegal w

/-- Settles O6: by the instruction one way, by the opcode field the other. -/
theorem decodeEncodeRoundTrip : Obligations.DecodeEncodeRoundTrip :=
  ⟨fun _ => decode_encode, decode_wellFormed⟩

/-- Settles O5, opcode by opcode. -/
theorem decoderFollowsOpcodeMap : Obligations.DecoderFollowsOpcodeMap := by
  intro w op x
  have hx : xField w = x := Machine.xField_eq_ofNat w
  rw [← hx]
  exact ⟨decode_of_opcode_zero, decode_of_opcode_one, decode_of_opcode_two, decode_of_opcode_three,
    decode_of_opcode_four, decode_of_opcode_five, decode_of_opcode_six, decode_of_opcode_seven,
    decode_of_opcode_ge_eight⟩

/-- Settles O7: the packed words as numbers, and `encode_decode` below opcode 7. -/
theorem legalWordReencodes : Obligations.LegalWordReencodes := by
  refine ⟨fun x => ?_, rfl, fun w hw => encode_decode (by omega), fun w hlo hhi => ?_⟩
  · simp [encode, packWord_toNat]
  · rw [decode_of_opcode_seven (by omega)]; rfl

/-- Settles O8: a word that decoding keeps is an encoding, which fits its instruction's row; a STOP word is
packed with opcode 7. -/
theorem opcodeRowsPartitionWords : Obligations.OpcodeRowsPartitionWords := by
  intro w
  by_cases hstop : w.toNat / 4096 = 7
  · have hw : packWord 7#4 (xField w) = w := packWord_xField hstop
    rw [decode_of_opcode_seven hstop, ← hw]
    exact Laws.EncodingFitsRow.of_packWord _ (by decide)
  · have hfits := encode_fitsRow (decode w) (decode_wellFormed w)
    rwa [encode_decode hstop] at hfits

/-- Settles O4: ten closed words. -/
theorem specWordsDecode : Obligations.SpecWordsDecode := by
  unfold Obligations.SpecWordsDecode
  decide

/-- Settles O17: from 0x8000 on the opcode is at least 8; the fault writes HALTED and FAULT. -/
theorem illegalWordRaisesIllegalOpcode : Obligations.IllegalWordRaisesIllegalOpcode := fun w s =>
  ⟨fun hw => decode_of_opcode_ge_eight (by omega), _, Machine.exec_illegal w s, rfl, ⟨rfl, nofun⟩, fun _ => rfl⟩

end Sys2Proof

namespace Sys2Proof.Machine

/-! ### Loading an image (R74, R115) -/

/-- In READY, with no run in progress, a push with room is accepted and nothing else happens (R107). -/
theorem edge_push {s : State} (hready : phase s = .ready) (hrun : s.runmode = false)
    (hroom : s.progLen.toNat < 4096) (w : InstrWord) :
    edge (Inputs.push w) s = .next ((pushWord w s).setPulses false false false) := by
  have hidle : stepsAt (Inputs.push w) s = false := by simp [stepsAt, Inputs.cmd, Inputs.push, hrun]
  have hfull : s.progLen.toNat ≠ 4096 := hroom.ne
  rw [edge_of_idle rfl hidle]
  simp [idleEdge, Inputs.ld, Inputs.cmd, Inputs.push, acceptData, acceptPush, hready, hroom, hfull]

/-- In READY, with no run in progress, a data load is accepted and nothing else happens (R108). -/
theorem edge_dataLoad {s : State} (hready : phase s = .ready) (hrun : s.runmode = false) (a : DataAddr)
    (v : Value) :
    edge (Inputs.dataLoad a v) s = .next ((memWrite a v s).setPulses false false false) := by
  have hidle : stepsAt (Inputs.dataLoad a v) s = false := by simp [stepsAt, Inputs.cmd, Inputs.dataLoad, hrun]
  rw [edge_of_idle rfl hidle]
  simp [idleEdge, Inputs.ld, Inputs.cmd, Inputs.dataLoad, acceptData, acceptPush, hready]

/-- Edges in sequence: the second list goes on from where the first one ends. -/
theorem edges_append {ins rest : List Inputs} {s t : State} (h : edges ins s = .next t) :
    edges (ins ++ rest) s = edges rest t := by
  induction ins generalizing s with
  | nil => cases h; rfl
  | cons inp ins ih =>
    obtain ⟨u, hu⟩ := edge_total inp s
    rw [edges_cons hu] at h
    rw [List.cons_append, edges_cons hu, ih h]

/-- A READY machine into which exactly these words have been pushed, no load refused. -/
structure ReadyWith (ws : List InstrWord) (s : State) : Prop where
  inv : MachineInv s
  ready : phase s = .ready
  not_running : s.runmode = false
  no_error : s.loadErr = false
  progLen_eq : s.progLen.toNat = ws.length
  imem_eq : ∀ (i : Nat) (w : InstrWord), ws[i]? = some w → imemRead (BitVec.ofNat 12 i) s = w

theorem ReadyWith.resetEdge (s : State) : ReadyWith [] (resetEdge s) where
  inv := machineInv_resetValues _
  ready := rfl
  not_running := rfl
  no_error := rfl
  progLen_eq := rfl
  imem_eq := by simp

/-- An index below 4096 names the cell at PROG_LEN exactly if it is PROG_LEN. -/
theorem ofNat_eq_lowBits_iff {i : Nat} {p : Index} (hi : i < 4096) (hp : p.toNat < 4096) :
    BitVec.ofNat 12 i = p.extractLsb' 0 12 ↔ i = p.toNat := by
  rw [← BitVec.toNat_inj, lowBits_toNat hp, BitVec.toNat_ofNat, Nat.mod_eq_of_lt hi]

theorem ReadyWith.push {ws : List InstrWord} {s : State} (h : ReadyWith ws s) (hroom : ws.length < 4096) (w : InstrWord) :
    ∃ t, edge (Inputs.push w) s = .next t ∧ ReadyWith (ws ++ [w]) t ∧ t.dmem = s.dmem := by
  have hlen : s.progLen.toNat < 4096 := h.progLen_eq ▸ hroom
  have hedge := edge_push h.ready h.not_running hlen w
  refine ⟨_, hedge, ?_, rfl⟩
  exact
    { inv := edgeKeepsInvariant _ _ _ h.inv hedge
      ready := h.ready
      not_running := h.not_running
      no_error := rfl
      progLen_eq := by simpa [h.progLen_eq] using index_succ_toNat hlen
      imem_eq := fun i u hu => by
        have hi : i < ws.length + 1 := by simpa using (List.getElem?_eq_some_iff.mp hu).1
        change imemRead _ (pushWord w s) = u
        rw [imemRead_pushWord]
        simp only [ofNat_eq_lowBits_iff (show i < 4096 by omega) hlen, h.progLen_eq]
        by_cases hlast : i = ws.length
        · simpa [hlast] using hu
        · rw [List.getElem?_append_left (by omega)] at hu
          rw [if_neg hlast, h.imem_eq i u hu] }

theorem ReadyWith.dataLoad {ws : List InstrWord} {s : State} (h : ReadyWith ws s) (a : DataAddr) (v : Value) :
    ∃ t, edge (Inputs.dataLoad a v) s = .next t ∧ ReadyWith ws t ∧ t.dmem = Memory.write s.dmem a v := by
  have hedge := edge_dataLoad h.ready h.not_running a v
  exact ⟨_, hedge,
    { inv := edgeKeepsInvariant _ _ _ h.inv hedge
      ready := h.ready
      not_running := h.not_running
      no_error := rfl
      progLen_eq := h.progLen_eq
      imem_eq := h.imem_eq }, rfl⟩

/-- The pushes of a list of words put them after the words already there (R107). -/
theorem ReadyWith.pushes {ws : List InstrWord} {s : State} (h : ReadyWith ws s) (vs : List InstrWord)
    (hroom : ws.length + vs.length ≤ 4096) :
    ∃ t, edges (vs.map Inputs.push) s = .next t ∧ ReadyWith (ws ++ vs) t ∧ t.dmem = s.dmem := by
  induction vs generalizing ws s with
  | nil => exact ⟨s, rfl, by simpa using h, rfl⟩
  | cons v vs ih =>
    rw [List.length_cons] at hroom
    obtain ⟨u, hu, hready, hmem⟩ := h.push (by omega) v
    obtain ⟨t, ht, hready', hmem'⟩ := ih hready (by rw [List.length_append, List.length_singleton]; omega)
    exact ⟨t, by rw [List.map_cons, edges_cons hu, ht], by simpa using hready', hmem'.trans hmem⟩

/-- Writes the listed cells in order. -/
def Memory.writeAll (m : Memory) (cells : Memory) : Memory :=
  cells.foldl (fun m c => Memory.write m (BitVec.ofNat 12 c.1) c.2) m

theorem ReadyWith.dataLoads {ws : List InstrWord} {s : State} (h : ReadyWith ws s) (cells : Memory) :
    ∃ t, edges (cells.map fun c => Inputs.dataLoad (BitVec.ofNat 12 c.1) c.2) s = .next t ∧ ReadyWith ws t ∧
      t.dmem = Memory.writeAll s.dmem cells := by
  induction cells generalizing s with
  | nil => exact ⟨s, rfl, h, rfl⟩
  | cons c cells ih =>
    obtain ⟨u, hu, hready, hmem⟩ := h.dataLoad (BitVec.ofNat 12 c.1) c.2
    obtain ⟨t, ht, hready', hmem'⟩ := ih hready
    exact ⟨t, by rw [List.map_cons, edges_cons hu, ht], hready', by rw [hmem', hmem]; rfl⟩

/-- Writing a cell above all listed ones appends it, in a canonical memory. -/
theorem Memory.write_append {m rest : Memory} {c : Nat × Value} (h : Memory.wf (m ++ c :: rest)) :
    Memory.write m (BitVec.ofNat 12 c.1) c.2 = m ++ [c] := by
  obtain ⟨hrising, hcells⟩ := h
  obtain ⟨hlt, hval⟩ := hcells c (by simp)
  rw [List.map_append, List.pairwise_append] at hrising
  obtain ⟨_, _, habove⟩ := hrising
  rw [Memory.write, if_neg hval, BitVec.toNat_ofNat, Nat.mod_eq_of_lt hlt]
  exact Cells.insert_above _ _ _ fun d hd => habove _ (List.mem_map_of_mem hd) _ (by simp)

/-- Writing the cells of a canonical memory one after the other builds it. -/
theorem Memory.writeAll_append {m rest : Memory} (h : Memory.wf (m ++ rest)) :
    Memory.writeAll m rest = m ++ rest := by
  induction rest generalizing m with
  | nil => simp [Memory.writeAll]
  | cons c rest ih =>
    have hsplit : m ++ c :: rest = (m ++ [c]) ++ rest := by simp
    calc Memory.writeAll m (c :: rest)
        = Memory.writeAll (Memory.write m (BitVec.ofNat 12 c.1) c.2) rest := rfl
      _ = Memory.writeAll (m ++ [c]) rest := by rw [Memory.write_append h]
      _ = m ++ c :: rest := by rw [ih (hsplit ▸ h), hsplit]

/-- A canonical memory lists no zero, so `load(image)` writes every listed cell. -/
theorem Memory.filter_nonzero {m : Memory} (h : Memory.wf m) : (m.filter fun c => c.2 != 0x000#12) = m :=
  List.filter_eq_self.mpr fun c hc => bne_iff_ne.mpr (h.2 c hc).2

/-- `load(image)` leaves a READY machine that holds the image: the reset, the pushes, the data writes. -/
theorem hostLoad_readyWith {img : Image} (s : State) (hlen : img.words.length ≤ 4096) (hmem : Memory.wf img.mem) :
    ∃ t, hostLoad img s = .next t ∧ ReadyWith img.words t ∧ t.dmem = img.mem := by
  obtain ⟨u, hu, hready, hempty⟩ := (ReadyWith.resetEdge s).pushes img.words (by simpa using hlen)
  obtain ⟨t, ht, hready', hwritten⟩ := hready.dataLoads img.mem
  refine ⟨t, ?_, hready', ?_⟩
  · rw [hostLoad, loadInputs, edges_cons (edge_of_rst rfl), edges_append hu, Memory.filter_nonzero hmem, ht]
  · rw [hwritten, hempty]
    exact Memory.writeAll_append hmem

/-- Settles O51: what a READY machine that holds the image shows; READY fixes PC, ACC and FAULT (R31). -/
theorem loadPutsImageInMachine : Obligations.LoadPutsImageInMachine := by
  intro img s hlen hmem
  obtain ⟨t, ht, hready, hdmem⟩ := hostLoad_readyWith s hlen hmem
  obtain ⟨hpc, hacc, hfault⟩ := hready.inv.spec.ready_fresh (phase_eq_ready.mp hready.ready).2
  have hread : ∀ a, memRead a t = Memory.read img.mem a := fun a => by rw [memRead, hdmem]
  exact ⟨t, ht, hready.ready, by rw [hpc]; rfl, hacc, hready.not_running, hfault, hready.no_error,
    hready.progLen_eq, hready.imem_eq, hread, hready.inv⟩

end Sys2Proof.Machine

namespace Sys2Proof.Assembler

open Sys2Proof.Machine

/-! ### Hexadecimal digits (R64) -/

/-- A character has a value in a run of consecutive digits exactly by its place in the run. -/
theorem digitInRun_eq_some_iff_mem {first last : Char} {base : Nat} {run : List Char}
    (hrun : run.map Char.toNat = List.range' first.toNat (last.toNat + 1 - first.toNat)) (c : Char) (n : Nat) :
    digitInRun first last base c = some n ↔ (c, n) ∈ run.zipIdx base := by
  have hplace : ∀ k, run[k]? = some c ↔ k < last.toNat + 1 - first.toNat ∧ first.toNat + k = c.toNat := fun k => by
    have hinj : run[k]? = some c ↔ (run.map Char.toNat)[k]? = some c.toNat := by
      rw [List.getElem?_map, Option.map_eq_some_iff]
      exact ⟨fun h => ⟨c, h, rfl⟩, fun ⟨d, hd, heq⟩ => Char.toNat_inj.mp heq ▸ hd⟩
    rw [hinj, hrun, List.getElem?_eq_some_iff]
    simp
  rw [List.mk_mem_zipIdx_iff_le_and_getElem?_sub, hplace, digitInRun, Option.ite_none_right_eq_some,
    Option.some.injEq]
  omega

/-- Runs of digits that do not overlap share no digit. -/
theorem digitInRun_eq_none {first last first' last' c : Char} {base base' n : Nat}
    (h : digitInRun first last base c = some n)
    (hdisjoint : last.toNat < first'.toNat ∨ last'.toNat < first.toNat) :
    digitInRun first' last' base' c = none := by
  rw [digitInRun, Option.ite_none_right_eq_some] at h
  rw [digitInRun, if_neg (by omega)]

theorem hexDigit_eq_some_iff (c : Char) (n : Nat) : hexDigit c = some n ↔
    digitInRun '0' '9' 0 c = some n ∨ digitInRun 'a' 'f' 10 c = some n ∨ digitInRun 'A' 'F' 10 c = some n := by
  simp only [hexDigit, Option.or_eq_some_iff]
  constructor
  · tauto
  · rintro (h | h | h)
    · exact .inl h
    · exact .inr ⟨digitInRun_eq_none h (by decide), .inl h⟩
    · exact .inr ⟨digitInRun_eq_none h (by decide), .inr ⟨digitInRun_eq_none h (by decide), h⟩⟩

/-- The digits of R64 with their values: `0-9` and `a-f` in one list, `A-F` in the other. -/
theorem hexDigit_eq_some_iff_mem (c : Char) (n : Nat) : hexDigit c = some n ↔
    (c, n) ∈ ['0', '1', '2', '3', '4', '5', '6', '7', '8', '9', 'a', 'b', 'c', 'd', 'e', 'f'].zipIdx ∨
    (c, n) ∈ ['A', 'B', 'C', 'D', 'E', 'F'].zipIdx 10 := by
  have hsplit : ['0', '1', '2', '3', '4', '5', '6', '7', '8', '9', 'a', 'b', 'c', 'd', 'e', 'f'].zipIdx =
      ['0', '1', '2', '3', '4', '5', '6', '7', '8', '9'].zipIdx ++ ['a', 'b', 'c', 'd', 'e', 'f'].zipIdx 10 := rfl
  rw [hexDigit_eq_some_iff, hsplit, List.mem_append, or_assoc]
  exact or_congr (digitInRun_eq_some_iff_mem rfl c n)
    (or_congr (digitInRun_eq_some_iff_mem rfl c n) (digitInRun_eq_some_iff_mem rfl c n))

/-! ### Literals and their ranges (R64 to R66) -/

/-- The value of digits after digits of value `acc`: each shifts by one place. -/
def digitsValue (acc : Nat) (ds : List Char) : Nat := ds.foldl (fun v c => v * 16 + (hexDigit c).getD 0) acc

theorem hexDigits_eq_some_iff (ds : List Char) (acc n : Nat) : hexDigits acc ds = some n ↔
    (∀ c ∈ ds, (hexDigit c).isSome = true) ∧ n = digitsValue acc ds := by
  induction ds generalizing acc with
  | nil => simpa [hexDigits, digitsValue] using eq_comm
  | cons c cs ih =>
    cases hc : hexDigit c with
    | none => simp [hexDigits, hc]
    | some d => simp [hexDigits, hc, ih, digitsValue]

/-- A literal is `0x` and then the value of its digits. -/
theorem literal_of_digits {ds : List Char} (h : ds ≠ []) : literal ('0' :: 'x' :: ds) = hexDigits 0 ds := by
  cases ds with
  | nil => exact absurd rfl h
  | cons d ds => rfl

theorem literal_inv {tok : List Char} {n : Nat} (h : literal tok = some n) :
    ∃ ds, tok = '0' :: 'x' :: ds ∧ ds ≠ [] ∧ hexDigits 0 ds = some n := by
  unfold literal at h
  split at h
  · exact ⟨_, rfl, by simp, h⟩
  · cases h

theorem literal_eq_some_iff (tok : List Char) (n : Nat) : literal tok = some n ↔
    ∃ ds, tok = '0' :: 'x' :: ds ∧ ds ≠ [] ∧ (∀ c ∈ ds, (hexDigit c).isSome = true) ∧ n = digitsValue 0 ds := by
  constructor
  · intro h
    obtain ⟨ds, htok, hne, hds⟩ := literal_inv h
    exact ⟨ds, htok, hne, (hexDigits_eq_some_iff ds 0 n).mp hds⟩
  · rintro ⟨ds, rfl, hne, hds⟩
    rw [literal_of_digits hne]
    exact (hexDigits_eq_some_iff ds 0 n).mpr hds

theorem addressLiteral_of_literal {tok : List Char} {n : Nat} (h : literal tok = some n) :
    addressLiteral tok = if n ≤ 0xFFF then .ok (BitVec.ofNat 12 n) else .error .addressOutOfRange := by
  rw [addressLiteral, h]

theorem valueLiteral_of_literal {tok : List Char} {n : Nat} (h : literal tok = some n) :
    valueLiteral tok = if n ≤ 0xFFF then .ok (BitVec.ofNat 12 n) else .error .valueOutOfRange := by
  rw [valueLiteral, h]

/-- Settles O54: the runs of digits, the digits of a literal, and a leading digit of value 0. -/
theorem literalsArePrefixedHexDigits : Obligations.LiteralsArePrefixedHexDigits := by
  refine ⟨hexDigit_eq_some_iff_mem, literal_eq_some_iff, fun tok h => ?_, fun ds hne => ?_⟩
  · exact ⟨by rw [addressLiteral, h], by rw [valueLiteral, h]⟩
  · rw [literal_of_digits hne, literal_of_digits (List.cons_ne_nil _ _)]
    rfl

/-- Settles O55: a pattern of at most 12 bits is kept whole. -/
theorem addressLiteralRange : Obligations.AddressLiteralRange := by
  intro tok n h
  rw [addressLiteral_of_literal h]
  refine ⟨fun hn => ⟨_, if_pos hn, ?_⟩, fun hn => if_neg (by omega)⟩
  rw [BitVec.toNat_ofNat]
  omega

/-! ### Printed literals (R66, R73) -/

/-- A printed digit reads back as its four bits. -/
theorem hexDigit_hexChar (d : BitVec 4) : hexDigit (hexChar d) = some d.toNat := by
  revert d
  decide

/-- A printed operand reads back as its 12 bits. -/
theorem literal_literalText (x : BitVec 12) : literal (literalText x) = some x.toNat := by
  have hx : x.toNat < 4096 := x.isLt
  rw [literalText, literal_of_digits (List.cons_ne_nil _ _)]
  simp only [hexDigits, hexDigit_hexChar, BitVec.extractLsb'_toNat, Nat.shiftRight_eq_div_pow]
  congr 1
  omega

theorem addressLiteral_literalText (x : Operand) : addressLiteral (literalText x) = .ok x := by
  rw [addressLiteral_of_literal (literal_literalText x), if_pos (Nat.le_of_lt_succ x.isLt), BitVec.ofNat_toNat,
    BitVec.setWidth_eq]

theorem valueLiteral_literalText (v : Value) : valueLiteral (literalText v) = .ok v := by
  rw [valueLiteral_of_literal (literal_literalText v), if_pos (Nat.le_of_lt_succ v.isLt), BitVec.ofNat_toNat,
    BitVec.setWidth_eq]

/-- Settles O56: a pattern from 0x800 on is 4096 above the Value it stands for. -/
theorem valueLiteralRoundTrip : Obligations.ValueLiteralRoundTrip := by
  refine ⟨fun tok n h => ?_, fun n hlo hhi => ⟨_, valueLiteral_literalText _, ?_⟩⟩
  · rw [valueLiteral_of_literal h]
    refine ⟨fun hn => ⟨_, if_pos (by omega), ?_⟩, fun hn => ⟨_, if_pos hn.2, ?_⟩, fun hn => if_neg (by omega)⟩
    all_goals
      rw [BitVec.toInt_ofNat', Int.bmod_def]
      omega
  · rw [wrap12_toInt, Int.bmod_def]
    omega

end Sys2Proof.Assembler

namespace Sys2Proof.Assembler

open Sys2Proof.Machine

/-! ### What a classified line is (R60, R62) -/

/-- The seven operand mnemonics (R62). -/
def operandMnemonics : List (List Char × (Operand → Instr)) :=
  [(['L', 'O', 'A', 'D'], .load), (['S', 'T', 'O', 'R', 'E'], .store), (['A', 'D', 'D'], .add),
    (['S', 'U', 'B'], .sub), (['J', 'U', 'M', 'P'], .jump), (['J', 'G', 'E'], .jge), (['J', 'N', 'E'], .jne)]

theorem operandMnemonic_eq_some_iff (m : List Char) (mk : Operand → Instr) :
    operandMnemonic m = some mk ↔ (m, mk) ∈ operandMnemonics := by
  constructor
  · intro h
    unfold operandMnemonic at h
    split_ifs at h
    all_goals
      cases h
      subst m
      simp [operandMnemonics]
  · have hall : ∀ e ∈ operandMnemonics, operandMnemonic e.1 = some e.2 := by
      simp [operandMnemonics, operandMnemonic]
    exact hall (m, mk)

/-- The lines that tokens can stand for: no token, `INI` and two literals, `STOP`, an operand mnemonic and an
address literal (R62). -/
inductive Classified : List (List Char) → Line → Prop where
  | blank : Classified [] .blank
  | data {a v : List Char} {b : DataAddr} {u : Value} :
      addressLiteral a = .ok b → valueLiteral v = .ok u → Classified [['I', 'N', 'I'], a, v] (.data b u)
  | stop : Classified [['S', 'T', 'O', 'P']] (.instr .stop)
  | operand {m a : List Char} {mk : Operand → Instr} {x : Operand} :
      operandMnemonic m = some mk → addressLiteral a = .ok x → Classified [m, a] (.instr (mk x))

theorem classifyIni_classified {args : List (List Char)} {p : Line} (h : classifyIni args = .ok p) :
    Classified (['I', 'N', 'I'] :: args) p := by
  unfold classifyIni at h
  split at h
  · split at h
    · cases h
    · split at h
      · cases h
      · cases h; exact .data ‹_› ‹_›
  · cases h

theorem classifyOperand_classified {m : List Char} {mk : Operand → Instr} (hm : operandMnemonic m = some mk)
    {args : List (List Char)} {p : Line} (h : classifyOperand mk args = .ok p) : Classified (m :: args) p := by
  unfold classifyOperand at h
  split at h
  · split at h
    · cases h
    · cases h; exact .operand hm ‹_›
  · cases h

theorem classify_classified {toks : List (List Char)} {p : Line} (h : classify toks = .ok p) :
    Classified toks p := by
  unfold classify at h
  split at h
  · cases h; exact .blank
  · split_ifs at h with hini hstop
    · subst hini; exact classifyIni_classified h
    · subst hstop
      split at h
      · cases h; exact .stop
      · cases h
    · split at h
      · exact classifyOperand_classified ‹_› h
      · cases h

/-- `INI` and `STOP` are no operand mnemonics. -/
theorem classify_operand {m : List Char} {mk : Operand → Instr} (hm : operandMnemonic m = some mk)
    (args : List (List Char)) : classify (m :: args) = classifyOperand mk args := by
  have hini : m ≠ ['I', 'N', 'I'] := by rintro rfl; cases hm
  have hstop : m ≠ ['S', 'T', 'O', 'P'] := by rintro rfl; cases hm
  simp [classify, hini, hstop, hm]

theorem classify_eq_ok_iff (toks : List (List Char)) (p : Line) : classify toks = .ok p ↔ Classified toks p := by
  refine ⟨classify_classified, fun h => ?_⟩
  cases h with
  | blank => rfl
  | data ha hv => simp [classify, classifyIni, ha, hv]
  | stop => rfl
  | operand hm ha => rw [classify_operand hm, classifyOperand, ha]

theorem parseLine_eq_ok_iff (l : List Char) (p : Line) : parseLine l = .ok p ↔ Classified (tokens l) p :=
  classify_eq_ok_iff _ p

theorem classified_blank_iff (toks : List (List Char)) : Classified toks .blank ↔ toks = [] :=
  ⟨fun h => by cases h; rfl, fun h => h ▸ .blank⟩

theorem classified_data_iff (toks : List (List Char)) (b : DataAddr) (u : Value) :
    Classified toks (.data b u) ↔
      ∃ a v, toks = [['I', 'N', 'I'], a, v] ∧ addressLiteral a = .ok b ∧ valueLiteral v = .ok u := by
  constructor
  · intro h
    cases h with
    | data ha hv => exact ⟨_, _, rfl, ha, hv⟩
  · rintro ⟨a, v, rfl, ha, hv⟩
    exact .data ha hv

theorem classified_instr_iff (toks : List (List Char)) (i : Instr) : Classified toks (.instr i) ↔
    (toks = [['S', 'T', 'O', 'P']] ∧ i = .stop) ∨
    ∃ m a x, toks = [m, a] ∧ addressLiteral a = .ok x ∧ (m, i) ∈ operandMnemonics.map fun e => (e.1, e.2 x) := by
  constructor
  · intro h
    cases h with
    | stop => exact .inl ⟨rfl, rfl⟩
    | @operand m a mk x hm ha =>
      exact .inr ⟨m, a, x, rfl, ha, List.mem_map.mpr ⟨(m, mk), (operandMnemonic_eq_some_iff m mk).mp hm, rfl⟩⟩
  · rintro (⟨rfl, rfl⟩ | ⟨m, a, x, rfl, ha, hmem⟩)
    · exact .stop
    · obtain ⟨⟨m', mk⟩, hmk, heq⟩ := List.mem_map.mp hmem
      cases heq
      exact .operand ((operandMnemonic_eq_some_iff _ mk).mpr hmk) ha

/-- No line is an illegal instruction, so its encoding is a legal word (R56). -/
theorem encode_lt_of_classified {toks : List (List Char)} {i : Instr} (h : Classified toks (.instr i)) :
    (encode i).toNat < 0x8000 := by
  cases h with
  | stop => decide
  | @operand m a mk x hm _ =>
    have hall : ∀ e ∈ operandMnemonics, (encode (e.2 x)).toNat < 0x8000 := by
      simp [operandMnemonics, encode, packWord_toNat]
      omega
    exact hall _ ((operandMnemonic_eq_some_iff m mk).mp hm)

/-! ### Assembling the lines (R67 to R70) -/

/-- An assembly that succeeds has parsed its first line and goes on from what the line adds. -/
theorem assembleLines_cons_eq_ok {n : Nat} {img img' : Image} {l : List Char} {ls : List (List Char)}
    (h : assembleLines n img (l :: ls) = .ok img') :
    ∃ p, parseLine l = .ok p ∧ assembleLines (n + 1) (addLine img p) ls = .ok img' := by
  unfold assembleLines at h
  split at h
  · cases h
  · exact ⟨_, ‹_›, h⟩

theorem assembleLines_cons_of_ok {l : List Char} {p : Line} (hp : parseLine l = .ok p) (n : Nat) (img : Image)
    (ls : List (List Char)) :
    assembleLines n img (l :: ls) = assembleLines (n + 1) (addLine img p) ls := by
  rw [assembleLines, hp]

/-- The word a line gives the image. -/
def lineWord (l : List Char) : Option InstrWord :=
  match parseLine l with
  | .ok (.instr i) => some (encode i)
  | .ok (.data _ _) => none
  | .ok .blank => none
  | .error _ => none

/-- What a cell holding `v` holds after a line. -/
def cellAfterLine (a : DataAddr) (v : Value) (l : List Char) : Value :=
  match parseLine l with
  | .ok (.data b u) => if b = a then u else v
  | .ok (.instr _) => v
  | .ok .blank => v
  | .error _ => v

theorem addLine_words {l : List Char} {p : Line} (hp : parseLine l = .ok p) (img : Image) :
    (addLine img p).words = img.words ++ (lineWord l).toList := by
  cases p <;> simp [addLine, lineWord, hp]

theorem addLine_read {l : List Char} {p : Line} (hp : parseLine l = .ok p) (img : Image) (a : DataAddr) :
    Memory.read (addLine img p).mem a = cellAfterLine a (Memory.read img.mem a) l := by
  cases p with
  | blank | instr i => simp [addLine, cellAfterLine, hp]
  | data b u => simp [addLine, cellAfterLine, hp, Memory.read_write, eq_comm]

theorem addLine_mem_wf {img : Image} (h : Memory.wf img.mem) (p : Line) : Memory.wf (addLine img p).mem := by
  cases p with
  | blank | instr i => exact h
  | data b u => exact Memory.write_wf _ b u h

section
variable {n : Nat} {img img' : Image} {ls : List (List Char)}

theorem assembleLines_words (h : assembleLines n img ls = .ok img') :
    img'.words = img.words ++ ls.filterMap lineWord := by
  induction ls generalizing n img with
  | nil => cases h; simp
  | cons l ls ih =>
    obtain ⟨p, hp, h⟩ := assembleLines_cons_eq_ok h
    rw [ih h, addLine_words hp]
    cases hw : lineWord l <;> simp [hw]

theorem assembleLines_read (h : assembleLines n img ls = .ok img') (a : DataAddr) :
    Memory.read img'.mem a = ls.foldl (cellAfterLine a) (Memory.read img.mem a) := by
  induction ls generalizing n img with
  | nil => cases h; rfl
  | cons l ls ih =>
    obtain ⟨p, hp, h⟩ := assembleLines_cons_eq_ok h
    rw [ih h, addLine_read hp, List.foldl_cons]

theorem assembleLines_mem_wf (h : assembleLines n img ls = .ok img') (hwf : Memory.wf img.mem) :
    Memory.wf img'.mem := by
  induction ls generalizing n img with
  | nil => cases h; exact hwf
  | cons l ls ih =>
    obtain ⟨p, _, h⟩ := assembleLines_cons_eq_ok h
    exact ih h (addLine_mem_wf hwf p)

theorem parseLine_ok_of_assembleLines (h : assembleLines n img ls = .ok img') :
    ∀ l ∈ ls, ∃ p, parseLine l = .ok p := by
  induction ls generalizing n img with
  | nil => simp
  | cons l ls ih =>
    obtain ⟨p, hp, h⟩ := assembleLines_cons_eq_ok h
    exact List.forall_mem_cons.mpr ⟨⟨p, hp⟩, ih h⟩

theorem assembleLines_ok_of_parseLine (h : ∀ l ∈ ls, ∃ p, parseLine l = .ok p) (n : Nat) (img : Image) :
    ∃ img', assembleLines n img ls = .ok img' := by
  induction ls generalizing n img with
  | nil => exact ⟨img, rfl⟩
  | cons l ls ih =>
    obtain ⟨⟨p, hp⟩, hls⟩ := List.forall_mem_cons.mp h
    rw [assembleLines_cons_of_ok hp]
    exact ih hls _ _

/-- The line that aborts the assembly is the first one that does not parse. -/
theorem assembleLines_eq_error {e : AsmError} (h : assembleLines n img ls = .error e) :
    ∃ k, e.line = n + k ∧ ls[k]? = some e.text ∧ parseLine e.text = .error e.kind ∧
      ∀ (j : Nat) (l : List Char), j < k → ls[j]? = some l → ∃ p, parseLine l = .ok p := by
  induction ls generalizing n img with
  | nil => cases h
  | cons l ls ih =>
    cases hp : parseLine l with
    | error k =>
      rw [assembleLines, hp] at h
      cases h
      exact ⟨0, rfl, rfl, hp, by simp⟩
    | ok p =>
      rw [assembleLines_cons_of_ok hp] at h
      obtain ⟨k, hline, htext, hkind, hbefore⟩ := ih h
      refine ⟨k + 1, by omega, htext, hkind, fun j => ?_⟩
      cases j with
      | zero =>
        intro l' _ hl'
        cases hl'
        exact ⟨p, hp⟩
      | succ j => exact fun l' hj hl' => hbefore j l' (by omega) hl'

end

/-- Settles O58: the words of the lines in order; a line's word by what its tokens are. -/
theorem imageWordsAreInstructionLines : Obligations.ImageWordsAreInstructionLines := by
  refine ⟨fun text img h => ?_, fun l => ?_, fun l i => ?_⟩
  · have hwords : img.words = (sourceLines text).filterMap lineWord := assembleLines_words h
    refine ⟨hwords, fun w hw => ?_⟩
    rw [hwords, List.mem_filterMap] at hw
    obtain ⟨l, _, hlw⟩ := hw
    unfold lineWord at hlw
    split at hlw
    · cases hlw
      exact encode_lt_of_classified ((parseLine_eq_ok_iff l _).mp ‹_›)
    all_goals cases hlw
  · rw [parseLine_eq_ok_iff, classified_blank_iff]
  · rw [parseLine_eq_ok_iff, classified_instr_iff]
    rfl

/-- Settles O59: each line leaves in a cell what the fold goes on with, from the empty memory. -/
theorem lastDataDirectiveWins : Obligations.LastDataDirectiveWins := by
  refine ⟨fun text img h => ⟨assembleLines_mem_wf h Memory.wf_nil, fun a => assembleLines_read h a⟩,
    fun l b u => ?_⟩
  rw [parseLine_eq_ok_iff, classified_data_iff]

/-- Settles O60: the first bad line from line 0 on, and success exactly where every line parses. -/
theorem firstBadLineAbortsAssembly : Obligations.FirstBadLineAbortsAssembly := by
  refine ⟨fun text e h => ?_, fun text h => assembleLines_ok_of_parseLine h _ _,
    fun text img h => parseLine_ok_of_assembleLines h⟩
  obtain ⟨k, hline, htext, hkind, hbefore⟩ := assembleLines_eq_error h
  obtain rfl : e.line = k := hline.trans (Nat.zero_add k)
  exact ⟨htext, hkind, hbefore⟩

end Sys2Proof.Assembler

namespace Sys2Proof.Assembler

open Sys2Proof.Machine

/-! ### The tokens of a printed instruction (R60, R61, R73) -/

/-- A character that stands for itself inside a token: no blank, no comment sign, no line end. -/
def isTokenChar (c : Char) : Bool := !isBlankChar c && c != ';' && c != '\n'

/-- A text that is one token. -/
def IsToken (l : List Char) : Prop := l ≠ [] ∧ ∀ c ∈ l, isTokenChar c = true

theorem isTokenChar_iff (c : Char) : isTokenChar c = true ↔ isBlankChar c = false ∧ c ≠ ';' ∧ c ≠ '\n' := by
  simp [isTokenChar, and_assoc]

section
variable {l : List Char}

theorem IsToken.not_blank (h : IsToken l) : ∀ c ∈ l, isBlankChar c = false :=
  fun c hc => ((isTokenChar_iff c).mp (h.2 c hc)).1

theorem IsToken.no_comment (h : IsToken l) : ';' ∉ l :=
  fun hc => ((isTokenChar_iff _).mp (h.2 _ hc)).2.1 rfl

theorem IsToken.no_lineEnd (h : IsToken l) : '\n' ∉ l :=
  fun hc => ((isTokenChar_iff _).mp (h.2 _ hc)).2.2 rfl

theorem stripComment_eq_self (h : ';' ∉ l) : stripComment l = l := by
  induction l with
  | nil => rfl
  | cons c cs ih =>
    obtain ⟨hc, hcs⟩ := not_or.mp (mt List.mem_cons.mpr h)
    rw [stripComment, if_neg (Ne.symm hc), ih hcs]

theorem linesFrom_eq_singleton (h : '\n' ∉ l) (cur : List Char) : linesFrom cur l = [cur ++ l] := by
  induction l generalizing cur with
  | nil => simp [linesFrom]
  | cons c cs ih =>
    obtain ⟨hc, hcs⟩ := not_or.mp (mt List.mem_cons.mpr h)
    rw [linesFrom, if_neg (Ne.symm hc), ih hcs, List.append_assoc, List.singleton_append]

/-- Characters that are no blanks go to the token being read. -/
theorem tokensFrom_append (h : ∀ c ∈ l, isBlankChar c = false) (cur rest : List Char) :
    tokensFrom cur (l ++ rest) = tokensFrom (cur ++ l) rest := by
  induction l generalizing cur with
  | nil => simp
  | cons c cs ih =>
    obtain ⟨hc, hcs⟩ := List.forall_mem_cons.mp h
    simp [tokensFrom, hc, ih hcs]

theorem IsToken.tokensFrom_eq (h : IsToken l) : tokensFrom [] l = [l] := by
  have happend := tokensFrom_append h.not_blank [] []
  rw [List.append_nil, List.nil_append] at happend
  rw [happend, tokensFrom, if_neg h.1]

theorem IsToken.tokens_eq (h : IsToken l) : tokens l = [l] := by
  rw [tokens, stripComment_eq_self h.no_comment, h.tokensFrom_eq]

/-- Two tokens with a space between them are read as these two. -/
theorem IsToken.tokens_pair {m : List Char} (hm : IsToken m) (hl : IsToken l) : tokens (m ++ ' ' :: l) = [m, l] := by
  have hcomment : ';' ∉ m ++ ' ' :: l := by simp [hm.no_comment, hl.no_comment]
  have hspace : isBlankChar ' ' = true := rfl
  rw [tokens, stripComment_eq_self hcomment, tokensFrom_append hm.not_blank, List.nil_append, tokensFrom,
    if_pos hspace, if_neg hm.1, hl.tokensFrom_eq]

end

theorem isTokenChar_hexChar (d : BitVec 4) : isTokenChar (hexChar d) = true := by
  revert d
  decide

theorem isToken_literalText (x : BitVec 12) : IsToken (literalText x) := by
  have hzero : isTokenChar '0' = true ∧ isTokenChar 'x' = true := by decide
  refine ⟨List.cons_ne_nil _ _, ?_⟩
  simp [literalText, hzero, isTokenChar_hexChar]

theorem isToken_of_operandMnemonic {m : List Char} {mk : Operand → Instr} (h : operandMnemonic m = some mk) :
    IsToken m := by
  have hall : (operandMnemonics.all fun e => !e.1.isEmpty && e.1.all isTokenChar) = true := rfl
  have hm := List.all_eq_true.mp hall _ ((operandMnemonic_eq_some_iff m mk).mp h)
  simpa [IsToken] using hm

/-! ### Assembling a printed instruction (R73) -/

/-- A text of one instruction line assembles to its one word. -/
theorem assemble_instr {text : List Char} {i : Instr} (hline : '\n' ∉ text)
    (hi : Classified (tokens text) (.instr i)) :
    assemble text = .ok { words := [encode i], mem := [] } := by
  rw [assemble, sourceLines, linesFrom_eq_singleton hline, List.nil_append,
    assembleLines_cons_of_ok ((parseLine_eq_ok_iff text _).mpr hi)]
  rfl

theorem assemble_operand {m : List Char} {mk : Operand → Instr} (hm : operandMnemonic m = some mk) (x : Operand) :
    assemble (m ++ ' ' :: literalText x) = .ok { words := [encode (mk x)], mem := [] } := by
  have hmtok := isToken_of_operandMnemonic hm
  have hxtok := isToken_literalText x
  refine assemble_instr (by simp [hmtok.no_lineEnd, hxtok.no_lineEnd]) ?_
  rw [hmtok.tokens_pair hxtok]
  exact .operand hm (addressLiteral_literalText x)

/-- The printed form of an instruction that is not illegal assembles to its encoding. -/
theorem assemble_printInstr {i : Instr} (hwf : i.wellFormed = true) (hlegal : (encode i).toNat < 0x8000) :
    assemble (printInstr i) = .ok { words := [encode i], mem := [] } := by
  cases i with
  | load x => exact assemble_operand (m := ['L', 'O', 'A', 'D']) rfl x
  | store x => exact assemble_operand (m := ['S', 'T', 'O', 'R', 'E']) rfl x
  | add x => exact assemble_operand (m := ['A', 'D', 'D']) rfl x
  | sub x => exact assemble_operand (m := ['S', 'U', 'B']) rfl x
  | jump x => exact assemble_operand (m := ['J', 'U', 'M', 'P']) rfl x
  | jge x => exact assemble_operand (m := ['J', 'G', 'E']) rfl x
  | jne x => exact assemble_operand (m := ['J', 'N', 'E']) rfl x
  | stop => rfl
  | illegal w =>
    have hop : 8 ≤ w.toNat / 4096 := (getLsbD_fifteen_iff w).mp hwf
    change w.toNat < 0x8000 at hlegal
    omega

/-- What a legal word re-encodes to, said as one choice (R59). -/
theorem encode_decode_of_legal {w : InstrWord} (h : w.toNat < 0x8000) :
    encode (decode w) = if 0x7000 ≤ w.toNat then 0x7000#16 else w := by
  obtain ⟨_, _, hbelow, hstop⟩ := legalWordReencodes
  split
  · exact hstop w ‹_› h
  · exact hbelow w (by omega)

/-- Settles O57: printing is of the decoded word, which assembles to its encoding. -/
theorem printedLegalWordReassembles : Obligations.PrintedLegalWordReassembles := by
  intro w hw
  have hword := encode_decode_of_legal hw
  have hlegal : (encode (decode w)).toNat < 0x8000 := by
    rw [hword]
    split
    · decide
    · exact hw
  exact ⟨_, assemble_printInstr (decode_wellFormed w) hlegal, rfl, by rw [hword]⟩

end Sys2Proof.Assembler

/-! ## The execution cycle family: the datapath, what halts a step, and the frame of a step

The datapath performs the step, so statements about a performed step are read off the control row and the
memory signals of the state before it. -/

namespace Sys2Proof.Machine

/-! ### The units of the datapath: ACC, PC, the driven address, DMEM (R49, R81, R82) -/

section
variable {s : State} {x : Operand}

theorem nextAcc_of_noWrite (h : (controlSignals s).accWe = false) : nextAcc s = s.acc := by
  simp [nextAcc, h]

theorem nextAcc_of_write {op : AluOp} (h : (controlSignals s).accWe = true)
    (hop : (controlSignals s).aluOp = some op) (hx : (memSignals s).dmemAddr = some x) :
    nextAcc s = alu op s.acc (memRead x s) := by
  have hread : (memSignals s).dmemRdata = some (memRead x s) := congrArg (Option.map _) hx
  rw [nextAcc, h, hop, hread]

theorem nextPc_of_inc (h : (controlSignals s).pcSel = .inc) : nextPc s = s.pc + 1#13 := by
  rw [nextPc, h]

theorem nextPc_of_target (h : (controlSignals s).pcSel = .target) (hx : (fetched s).bind operandOf = some x) :
    nextPc s = jumpTarget x := by
  rw [nextPc, h, hx, jumpTarget]

theorem nextPc_of_hold (h : (controlSignals s).pcSel = .hold) : nextPc s = s.pc := by
  rw [nextPc, h]

theorem dmemAddr_of_access (h : ((controlSignals s).dmemRe || (controlSignals s).dmemWe) = true)
    (hx : (fetched s).bind operandOf = some x) : (memSignals s).dmemAddr = some x := by
  rw [memSignals, drivenDataAddr, if_pos h, hx]

theorem nextDmem_of_noWrite (h : (controlSignals s).dmemWe = false) : nextDmem s = s.dmem := by
  simp [nextDmem, memSignals, h]

theorem nextDmem_of_write (h : (controlSignals s).dmemWe = true) (hx : (memSignals s).dmemAddr = some x) :
    nextDmem s = Memory.write s.dmem x s.acc := by
  have hwe : (memSignals s).dmemWe = true := h
  rw [nextDmem, hwe, hx]
  rfl

end

/-! ### The datapath, one kind of control row at a time (R82) -/

section
variable {s : State} {i : Instr} {x : Operand}

/-- A row that halts writes HALTED and FAULT, and STARTED as every step. -/
theorem datapathStep_of_halting {c : FaultCause} (hc : controlSignals s = .halting c) :
    datapathStep s = s.markStarted.haltWith c := by
  have hacc : nextAcc s = s.acc := nextAcc_of_noWrite (congrArg Control.accWe hc)
  have hpc : nextPc s = s.pc := nextPc_of_hold (congrArg Control.pcSel hc)
  have hdmem : nextDmem s = s.dmem := nextDmem_of_noWrite (congrArg Control.dmemWe hc)
  simp [datapathStep, hacc, hpc, hdmem, hc, Control.halting, State.haltWith, State.markStarted]

/-- A row that goes on writes what the units compute, and STARTED. -/
theorem datapathStep_of_going {accWe re we : Bool} {op : Option AluOp} {sel : PcSel}
    (hc : controlSignals s = .going accWe op re we sel) :
    datapathStep s = { s.markStarted with acc := nextAcc s, pc := nextPc s, dmem := nextDmem s } := by
  simp [datapathStep, hc, Control.going, State.markStarted]

/-- A row that reads a cell writes ACC from the ALU. -/
theorem datapathStep_of_reading {op : AluOp} (hx : (fetched s).bind operandOf = some x)
    (hc : controlSignals s = .going true (some op) true false .inc) :
    datapathStep s = (s.markStarted.setAcc (alu op s.acc (memRead x s))).incPc := by
  have haddr : (memSignals s).dmemAddr = some x := dmemAddr_of_access (by rw [hc]; rfl) hx
  rw [datapathStep_of_going hc, nextAcc_of_write (congrArg Control.accWe hc) (congrArg Control.aluOp hc) haddr,
    nextPc_of_inc (congrArg Control.pcSel hc), nextDmem_of_noWrite (congrArg Control.dmemWe hc)]
  rfl

/-- A row that writes a cell writes ACC to it. -/
theorem datapathStep_of_storing (hx : (fetched s).bind operandOf = some x)
    (hc : controlSignals s = .going false none false true .inc) :
    datapathStep s = (memWrite x s.acc s.markStarted).incPc := by
  have haddr : (memSignals s).dmemAddr = some x := dmemAddr_of_access (by rw [hc]; rfl) hx
  rw [datapathStep_of_going hc, nextAcc_of_noWrite (congrArg Control.accWe hc),
    nextPc_of_inc (congrArg Control.pcSel hc), nextDmem_of_write (congrArg Control.dmemWe hc) haddr]
  rfl

/-- A row without a data access selects the next PC by `taken`. -/
theorem datapathStep_of_branching {taken : Bool} (hx : (fetched s).bind operandOf = some x)
    (hc : controlSignals s = .going false none false false (if taken then .target else .inc)) :
    datapathStep s = branchIf taken x s.markStarted := by
  rw [datapathStep_of_going hc, nextAcc_of_noWrite (congrArg Control.accWe hc),
    nextDmem_of_noWrite (congrArg Control.dmemWe hc)]
  cases taken with
  | true =>
    rw [nextPc_of_target (congrArg Control.pcSel hc) hx]
    rfl
  | false =>
    rw [nextPc_of_inc (congrArg Control.pcSel hc)]
    rfl

theorem controlSignals_of_fetched {d : Option Instr} (hf : fetched s = d) :
    controlSignals s = controlRow d (condGe s.acc) (condNz s.acc) := by
  rw [controlSignals, hf]

/-- The datapath does what the fetched instruction means (R78). -/
theorem exec_eq_datapathStep (hf : fetched s = some i) : exec i s.markStarted = .next (datapathStep s) := by
  have hc := controlSignals_of_fetched hf
  have hx : (fetched s).bind operandOf = operandOf i := congrArg (Option.bind · operandOf) hf
  cases i with
  | load x | add x | sub x =>
    rw [datapathStep_of_reading hx hc]
    rfl
  | store x =>
    rw [datapathStep_of_storing hx hc]
    rfl
  | jump x =>
    rw [datapathStep_of_branching (taken := true) hx hc]
    rfl
  | jge x =>
    rw [datapathStep_of_branching hx hc]
    exact exec_jge_eq_branchIf x s.markStarted
  | jne x =>
    rw [datapathStep_of_branching hx hc]
    rfl
  | stop | illegal w =>
    rw [datapathStep_of_halting hc]
    rfl

end

/-- Settles O35: the range check that fails has a halting row, and a fetched instruction its own. -/
theorem datapathPerformsStep : Obligations.DatapathPerformsStep := by
  intro s
  cases hf : fetched s with
  | none => rw [performStep_of_none hf, datapathStep_of_halting (controlSignals_of_fetched hf)]
  | some i => rw [performStep_of_fetched hf, exec_eq_datapathStep hf]

/-! ### The ALU (R79) -/

/-- Wrapping takes sums and differences of integers to those of 12-bit words (R7). -/
theorem wrap12_add (m n : Int) : wrap12 (m + n) = wrap12 m + wrap12 n := BitVec.ofInt_add m n

theorem wrap12_sub (m n : Int) : wrap12 (m - n) = wrap12 m - wrap12 n := by
  simp only [wrap12, Int.sub_eq_add_neg, BitVec.ofInt_add, BitVec.ofInt_neg, BitVec.sub_eq_add_neg]

/-- Both readings of a word wrap to the word. -/
theorem wrap12_of_toInt (a : Value) : wrap12 a.toInt = a := BitVec.ofInt_toInt

theorem wrap12_of_toNat (a : Value) : wrap12 (a.toNat : Int) = a := by
  rw [wrap12, BitVec.ofInt_natCast, BitVec.ofNat_toNat, BitVec.setWidth_eq]

theorem alu_add_eq (a b : Value) : alu .add a b = a + b := by
  rw [alu, wrap12_add, wrap12_of_toInt, wrap12_of_toInt]

theorem alu_sub_eq (a b : Value) : alu .sub a b = a - b := by
  rw [alu, wrap12_sub, wrap12_of_toInt, wrap12_of_toInt]

/-- Settles O36: the ALU wraps the signed results, and its two readings meet in the binary ones. -/
theorem aluAddsBothReadings : Obligations.AluAddsBothReadings := by
  intro a b
  have hadd : wrap12 (a.toNat + b.toNat : Nat) = a + b := by
    rw [Int.natCast_add, wrap12_add, wrap12_of_toNat, wrap12_of_toNat]
  have hsub : wrap12 ((a.toNat : Int) - (b.toNat : Int)) = a - b := by
    rw [wrap12_sub, wrap12_of_toNat, wrap12_of_toNat]
  exact ⟨rfl, wrap12_toInt _, wrap12_toInt _, (alu_add_eq a b).trans hadd.symm,
    (alu_sub_eq a b).trans hsub.symm, alu_add_eq a b, alu_sub_eq a b⟩

/-! ### A performed step inside and outside the program (R75, R76, R85, R100) -/

/-- Settles O19: the step performed is `exec` of the fetched instruction, and every `exec` answers. -/
theorem stepRunsDecodedInstruction : Obligations.StepRunsDecodedInstruction := by
  intro s i hh hin hi
  obtain ⟨t, ht, _⟩ := exec_effect i s.markStarted
  have hf : fetched s = some i := hi ▸ fetched_of_inProgram hin
  exact ⟨t, ht, step_of_running hh ((performStep_of_fetched hf).trans ht)⟩

/-- Settles O20: nothing is fetched, and the halt clears RUNMODE. -/
theorem outOfRangeFetchRaisesInvalidPc : Obligations.OutOfRangeFetchRaisesInvalidPc := by
  intro s hh hout
  refine ⟨by simp [memSignals, pcInProgram, hout], ?_⟩
  rw [step_of_running hh (performStep_of_none (fetched_of_outside hout)), State.haltWith_halted, Bool.not_true,
    Bool.and_false]
  rfl

/-! ### The invariants of R31 -/

/-- An effect keeps PC, advances it by one, or sets it to a 12-bit target. -/
theorem Effect.pc_cases {s t : State} (h : Effect s t) :
    t.pc = s.pc ∨ t.pc = s.pc + 1#13 ∨ t.pc.toNat < 4096 := by
  cases h with
  | halt c => exact .inl rfl
  | acc v | cell a | goOn => exact .inr (.inl rfl)
  | jump x =>
    rw [State.setPc_pc, jumpTarget_toNat]
    exact .inr (.inr x.isLt)

/-- What an edge with `step_req` alone leaves in PC: a step advances it only inside the program. -/
theorem step_pc_cases {s t : State} (ht : step s = .next t) :
    t.pc = s.pc ∨ (t.pc = s.pc + 1#13 ∧ s.pc.toNat < s.progLen.toNat) ∨ t.pc.toNat < 4096 := by
  rcases edge_inv_of_noReset rfl ht with ⟨_, u, hu, rfl⟩ | ⟨_, rfl⟩
  · rcases performStep_inv hu with ⟨hin, he⟩ | rfl
    · exact he.pc_cases.imp_right (.imp_left fun hpc => ⟨hpc, hin⟩)
    · exact .inl rfl
  · exact .inl (idleEdge_registers Inputs.step s).1

/-- `step` is a performed step or an edge without one, and both keep the invariants. -/
theorem SpecInv.of_step {s t : State} (h : SpecInv s) (ht : step s = .next t) : SpecInv t := by
  rcases edge_inv ht with ⟨hr, _⟩ | ⟨_, hs, u, hu, rfl⟩ | ⟨_, _, rfl⟩
  · exact absurd hr Bool.false_ne_true
  · exact h.finishStep Inputs.step (stepsAt_not_halted hs) hu
  · exact h.idleEdge Inputs.step

/-- Settles O26: the invariants as for any edge without reset, PC by the effect of the step. -/
theorem stepPreservesSpecInvariants : Obligations.StepPreservesSpecInvariants :=
  fun _ _ h ht => ⟨h.of_step ht, step_pc_cases ht⟩

/-! ### What a step leaves unchanged, read off its signals (R49, R82, R84) -/

/-- ACC is written exactly by the rows that read a cell. -/
theorem controlRow_accWe (d : Option Instr) (ge nz : Bool) :
    (controlRow d ge nz).accWe = (controlRow d ge nz).dmemRe := by
  cases d with
  | none => rfl
  | some i => cases i <;> rfl

section
variable {s u : State} (hu : performStep s = .next u)
include hu

theorem performStep_acc_of_noRead (h : (memSignals s).dmemRe = false) : u.acc = s.acc := by
  cases hu.symm.trans (datapathPerformsStep s)
  exact nextAcc_of_noWrite ((controlRow_accWe _ _ _).trans h)

theorem performStep_dmem_of_noWrite (h : (memSignals s).dmemWe = false) : u.dmem = s.dmem := by
  cases hu.symm.trans (datapathPerformsStep s)
  exact nextDmem_of_noWrite h

/-- A cell other than the one addressed keeps its value. -/
theorem performStep_memRead_of_ne {a x : DataAddr} (haddr : (memSignals s).dmemAddr = some x) (hne : a ≠ x) :
    memRead a u = memRead a s := by
  cases hu.symm.trans (datapathPerformsStep s)
  change Memory.read (nextDmem s) a = Memory.read s.dmem a
  cases hwe : (controlSignals s).dmemWe with
  | true => rw [nextDmem_of_write hwe haddr, Memory.read_write, if_neg hne]
  | false => rw [nextDmem_of_noWrite hwe]

end

theorem Effect.imemDraw_eq {s t : State} (h : Effect s t) : t.imemDraw = s.imemDraw := by cases h <;> rfl

/-- An effect that halts keeps PC. -/
theorem Effect.pc_of_halted {s t : State} (h : Effect s t) (hs : s.halted = false) (ht : t.halted = true) :
    t.pc = s.pc := by
  cases h with
  | halt c => rfl
  | acc v | cell a | goOn | jump x => exact absurd (hs.symm.trans ht) Bool.false_ne_true

/-! ### Which instructions go on (R83) -/

/-- A word with an opcode below STOP's decodes to an instruction with its operand field. -/
theorem operandOf_decode {w : InstrWord} (h : w.toNat / 4096 < 7) : operandOf (decode w) = some (xField w) := by
  rcases opcode_cases w with h' | h' | h' | h' | h' | h' | h' | h' | h'
  · rw [decode_of_opcode_zero h']; rfl
  · rw [decode_of_opcode_one h']; rfl
  · rw [decode_of_opcode_two h']; rfl
  · rw [decode_of_opcode_three h']; rfl
  · rw [decode_of_opcode_four h']; rfl
  · rw [decode_of_opcode_five h']; rfl
  · rw [decode_of_opcode_six h']; rfl
  · omega
  · omega

theorem branchIf_halted (taken : Bool) (x : Operand) (s : State) : (branchIf taken x s).halted = s.halted := by
  cases taken <;> rfl

/-- An instruction with an operand does not halt. -/
theorem exec_halted_of_operand {i : Instr} {x : Operand} {s t : State} (hx : operandOf i = some x)
    (h : exec i s = .next t) : t.halted = s.halted := by
  cases i with
  | load x | store x | add x | sub x | jump x =>
    cases h
    rfl
  | jge x | jne x =>
    cases h
    exact branchIf_halted _ x s
  | stop | illegal w => cases hx

/-! ### A performed step, by its opcode (R83) -/

section
variable {s t : State} (hh : s.halted = false) (ht : step s = .next t)
include hh ht

/-- While not halted, `step` performs a step and adds the edge's bookkeeping. -/
theorem step_inv_of_running : ∃ u, performStep s = .next u ∧ t = finishStep Inputs.step s u := by
  rcases edge_inv ht with ⟨hr, _⟩ | ⟨_, _, hu⟩ | ⟨_, hs, _⟩
  · exact absurd hr Bool.false_ne_true
  · exact hu
  · simp [hh] at hs

theorem step_invalidPc (hout : s.progLen.toNat ≤ s.pc.toNat) : t.halted = true ∧ t.fault = .invalidPc := by
  obtain ⟨_, hstep⟩ := outOfRangeFetchRaisesInvalidPc s hh hout
  cases ht.symm.trans hstep
  exact ⟨rfl, rfl⟩

variable (hin : s.pc.toNat < s.progLen.toNat)
include hin

theorem step_stop (hop : (ifetch s).toNat / 4096 = 7) : t.halted = true ∧ t.fault = .noFault := by
  obtain ⟨u, hu, hstep⟩ := stepRunsDecodedInstruction s .stop hh hin (decode_of_opcode_seven hop)
  cases hu
  cases ht.symm.trans hstep
  exact ⟨rfl, rfl⟩

theorem step_illegal (hop : 8 ≤ (ifetch s).toNat / 4096) : t.halted = true ∧ t.fault = .illegalOpcode := by
  obtain ⟨u, hu, hstep⟩ := stepRunsDecodedInstruction s _ hh hin (decode_of_opcode_ge_eight hop)
  cases hu
  cases ht.symm.trans hstep
  exact ⟨rfl, rfl⟩

theorem step_goesOn (hop : (ifetch s).toNat / 4096 < 7) : t.halted = false := by
  obtain ⟨u, hu, hstep⟩ := stepRunsDecodedInstruction s _ hh hin rfl
  cases ht.symm.trans hstep
  exact (exec_halted_of_operand (operandOf_decode hop) hu).trans hh

/-- A taken jump sets PC to the operand field. -/
theorem step_pc_of_taken (hjump : (ifetch s).toNat / 4096 = 4 ∨
    ((ifetch s).toNat / 4096 = 5 ∧ 0 ≤ s.acc.toInt) ∨ ((ifetch s).toNat / 4096 = 6 ∧ s.acc ≠ 0x000#12)) :
    t.pc.toNat = (ifetch s).toNat % 4096 := by
  obtain ⟨_, hinside⟩ := stepAdvancesPc s t hh ht
  obtain ⟨_, hfour, hfive, hsix, _⟩ := hinside hin
  rcases hjump with hop | ⟨hop, hge⟩ | ⟨hop, hnz⟩
  · exact hfour hop
  · exact (if_pos hge).mp (hfive hop)
  · exact (if_pos hnz).mp (hsix hop)

end

/-- Settles O23: what no effect writes, then the data access of the opcode at PC, then what halting
writes. -/
theorem stepFrame : Obligations.StepFrame := by
  intro s t hh ht op
  obtain ⟨hre, hwe, _, haddr, _⟩ := stepMakesAtMostOneDataAccess s
  obtain ⟨u, hu, rfl⟩ := step_inv_of_running hh ht
  have he := performStep_next_effect hu
  refine ⟨he.imem_eq, he.progLen_eq, he.imemDraw_eq, he.started_eq, fun hno a => ?_,
    fun hstore a hne => ?_, fun hno => ?_, fun ⟨hin, hop⟩ => step_goesOn hh ht hin hop, he.pc_of_halted hh,
    fun hgo => ?_⟩
  · exact memRead_congr (performStep_dmem_of_noWrite hu (Bool.eq_false_iff.mpr (mt hwe.mp hno))) a
  · refine performStep_memRead_of_ne hu (haddr (.inr (hwe.mpr hstore))) fun heq => hne ?_
    simp [heq]
  · rw [finishStep_acc, performStep_acc_of_noRead hu (Bool.eq_false_iff.mpr (mt hre.mp hno))]
  · rw [finishStep_halted] at hgo
    rcases he.halts_or_keeps with hhalt | ⟨_, hfault⟩
    · exact absurd (hgo.symm.trans hhalt) Bool.false_ne_true
    · exact ⟨hfault, by simp [hgo]⟩

/-- Settles O22: outside the program, STOP, an illegal word, or an instruction that goes on; where a jump out
of the program goes on, the next step is outside. -/
theorem stepHaltsInExactlyThreeCases : Obligations.StepHaltsInExactlyThreeCases := by
  intro s t hh ht inside op jumps
  refine ⟨⟨fun hhalt => ?_, ?_⟩, fun ⟨hin, hop⟩ => (step_stop hh ht hin hop).2,
    fun hout => (step_invalidPc hh ht (Nat.le_of_not_lt hout)).2,
    fun ⟨hin, hop⟩ => (step_illegal hh ht hin hop).2, fun ⟨hin, hjump, hlen⟩ => ?_⟩
  · by_cases hin : inside
    · have hop : op < 7 ∨ op = 7 ∨ 8 ≤ op := by omega
      rcases hop with hop | hop | hop
      · exact absurd ((step_goesOn hh ht hin hop).symm.trans hhalt) Bool.false_ne_true
      · exact .inr (.inl ⟨hin, hop⟩)
      · exact .inr (.inr ⟨hin, hop⟩)
    · exact .inl hin
  · rintro (hout | ⟨hin, hop⟩ | ⟨hin, hop⟩)
    · exact (step_invalidPc hh ht (Nat.le_of_not_lt hout)).1
    · exact (step_stop hh ht hin hop).1
    · exact (step_illegal hh ht hin hop).1
  · have hop : op < 7 := by omega
    have hgo : t.halted = false := step_goesOn hh ht hin hop
    have hpc : t.pc.toNat = (ifetch s).toNat % 4096 := step_pc_of_taken hh ht hin hjump
    obtain ⟨_, hprogLen, _⟩ := stepFrame s t hh ht
    obtain ⟨_, hnext⟩ := outOfRangeFetchRaisesInvalidPc t hgo (by rw [hprogLen, hpc]; exact hlen)
    exact ⟨hgo, _, hnext, rfl, rfl, rfl⟩

end Sys2Proof.Machine

/-! ## The data transfer family: the frame of an instruction that goes on, LOAD and STORE -/

namespace Sys2Proof.Machine

/-! ### An instruction that goes on writes PC, ACC and data memory only (R84) -/

theorem branchIf_sameElsewhere (taken : Bool) (x : Operand) (s : State) : SameElsewhere s (branchIf taken x s) := by
  cases taken <;> constructor <;> rfl

/-- An instruction with an operand writes nothing but PC, ACC and data memory. -/
theorem exec_sameElsewhere_of_operand {i : Instr} {x : Operand} {s t : State} (hx : operandOf i = some x)
    (h : exec i s = .next t) : SameElsewhere s t := by
  cases i with
  | load x | store x | add x | sub x =>
    cases h
    constructor <;> rfl
  | jump x | jge x | jne x =>
    cases h
    exact branchIf_sameElsewhere _ x s
  | stop | illegal w => cases hx

/-! ### LOAD and STORE (R88, R89) -/

/-- Settles O9: the cell read is in ACC, and LOAD stores to no cell. -/
theorem loadCopiesCellIntoAcc : Obligations.LoadCopiesCellIntoAcc := by
  intro x s
  have hexec := exec_load x s
  exact ⟨decode_packWord 0x0#4 x, _, hexec, rfl, rfl, exec_memRead hexec,
    exec_sameElsewhere_of_operand rfl hexec⟩

/-- Settles O10: of the cells, the one write of STORE changes X alone. -/
theorem storeCopiesAccIntoCell : Obligations.StoreCopiesAccIntoCell := by
  intro x s
  have hexec := exec_store x s
  have hread (a : DataAddr) : memRead a (memWrite x s.acc s).incPc = if a = x then s.acc else memRead a s :=
    memRead_memWrite x a s.acc s
  exact ⟨decode_packWord 0x1#4 x, rfl, _, hexec, (hread x).trans (if_pos rfl),
    fun a hne => (hread a).trans (if_neg hne), rfl, rfl, exec_sameElsewhere_of_operand rfl hexec⟩

end Sys2Proof.Machine

/-! ## The arithmetic family: the results of ADD and SUB, wrapped to a Value -/

namespace Sys2Proof.Machine

/-! ### Wrapping a result at most 4096 beyond the Values (R7, R90) -/

theorem value_toInt_range (a : Value) : -2048 ≤ a.toInt ∧ a.toInt ≤ 2047 := by
  have hlo := BitVec.le_toInt a
  have hhi := BitVec.toInt_lt (x := a)
  omega

/-- An integer at most 4096 beyond the Values on either side wraps to itself, or is brought back by 4096. -/
theorem wrap12_toInt_exact_or_off {n : Int} (hlo : -2048 - 4096 ≤ n) (hhi : n ≤ 2047 + 4096) :
    (-2048 ≤ n ∧ n ≤ 2047 → (wrap12 n).toInt = n) ∧
      (n < -2048 → (wrap12 n).toInt = n + 4096) ∧ (2047 < n → (wrap12 n).toInt = n - 4096) := by
  rw [wrap12_toInt, Int.bmod_def]
  exact ⟨fun hvalue => by omega, fun hbelow => by omega, fun habove => by omega⟩

/-! ### The sum and the difference as numbers (R90) -/

theorem addWrap_toNat (a b : Value) : (addWrap a b).toNat = (a.toNat + b.toNat) % 4096 := by
  have hadd : addWrap a b = a + b := alu_add_eq a b
  rw [hadd, BitVec.toNat_add]

theorem subWrap_toNat (a b : Value) : (subWrap a b).toNat = (a.toNat + 4096 - b.toNat) % 4096 := by
  have hsub : subWrap a b = a - b := alu_sub_eq a b
  rw [hsub, BitVec.toNat_sub]
  omega

/-! ### ADD and SUB (R90 to R92) -/

/-- Settles O18: two Values add or subtract to at most 4096 beyond the Values, which one turn of the wrap
brings back. -/
theorem arithmeticIsExactOrOffBy4096 : Obligations.ArithmeticIsExactOrOffBy4096 := by
  intro x s
  have hadd := exec_add x s
  have hsub := exec_sub x s
  have hacc := value_toInt_range s.acc
  have hcell := value_toInt_range (memRead x s)
  obtain ⟨haddIn, haddBelow, haddAbove⟩ :=
    wrap12_toInt_exact_or_off (n := s.acc.toInt + (memRead x s).toInt) (by omega) (by omega)
  obtain ⟨hsubIn, hsubBelow, hsubAbove⟩ :=
    wrap12_toInt_exact_or_off (n := s.acc.toInt - (memRead x s).toInt) (by omega) (by omega)
  exact ⟨⟨_, hadd, addWrap_toNat _ _, haddIn, haddBelow, haddAbove, exec_sameElsewhere_of_operand rfl hadd⟩,
    _, hsub, subWrap_toNat _ _, hsubIn, hsubBelow, hsubAbove, exec_sameElsewhere_of_operand rfl hsub⟩

/-- Settles O11: ACC gets the wrapped sum, and ADD stores to no cell. -/
theorem addWrapsSumIntoAcc : Obligations.AddWrapsSumIntoAcc := by
  intro x s
  have hexec := exec_add x s
  exact ⟨decode_packWord 0x2#4 x, _, hexec, wrap12_toInt _, rfl, exec_memRead hexec,
    exec_sameElsewhere_of_operand rfl hexec⟩

/-- Settles O12: ACC gets the wrapped difference, and SUB stores to no cell. -/
theorem subWrapsDifferenceIntoAcc : Obligations.SubWrapsDifferenceIntoAcc := by
  intro x s
  have hexec := exec_sub x s
  exact ⟨decode_packWord 0x3#4 x, _, hexec, wrap12_toInt _, rfl, exec_memRead hexec,
    exec_sameElsewhere_of_operand rfl hexec⟩

end Sys2Proof.Machine

/-! ## The control transfer family: JUMP, JGE and JNE, and the jump to its own index in run mode -/

namespace Sys2Proof.Machine

/-! ### A jump on a condition (R81, R94) -/

section branchIf
variable {taken : Bool} (x : Operand) (s : State)

theorem branchIf_pc_of_taken (h : taken = true) : (branchIf taken x s).pc.toNat = x.toNat := by
  subst h
  exact jumpTarget_toNat x

theorem branchIf_pc_of_not_taken (h : ¬ taken = true) : (branchIf taken x s).pc = s.pc + 1#13 := by
  rw [branchIf, if_neg h]
  rfl

@[simp] theorem branchIf_acc : (branchIf taken x s).acc = s.acc := by cases taken <;> rfl

end branchIf

/-- The test JNE makes, on the word as a number (R97). -/
theorem condNz_iff_toNat (v : Value) : condNz v = true ↔ v.toNat ≠ 0 :=
  bne_iff_ne.trans (not_congr BitVec.toNat_inj.symm)

/-! ### JUMP, JGE and JNE (R95 to R97) -/

/-- Settles O13: the target is the operand as a number, and JUMP stores to no cell. -/
theorem jumpSetsPcToIndex : Obligations.JumpSetsPcToIndex := by
  intro x s
  have hexec := exec_jump x s
  exact ⟨decode_packWord 0x4#4 x, _, hexec, jumpTarget_toNat x, rfl, exec_memRead hexec,
    exec_sameElsewhere_of_operand rfl hexec⟩

/-- Settles O14: JGE branches on GE, which is `ACC[11] = 0` and the signed test at once (R80). -/
theorem jgeJumpsIffAccNotNegative : Obligations.JgeJumpsIffAccNotNegative := by
  intro x s
  have hexec := exec_jge_eq_branchIf x s
  have hge := condGe_iff s.acc
  have hbit : condGe s.acc = true ↔ s.acc.getLsbD 11 = false := beq_iff_eq
  exact ⟨decode_packWord 0x5#4 x, _, hexec, hge.symm.trans hbit,
    fun hnonneg => branchIf_pc_of_taken x s (hge.mpr hnonneg),
    fun hneg => branchIf_pc_of_not_taken x s (hge.not.mpr hneg.not_ge),
    branchIf_acc x s, exec_memRead hexec, exec_sameElsewhere_of_operand rfl hexec⟩

/-- Settles O15: JNE branches on NZ, which is ACC as a number not being 0 (R80). -/
theorem jneJumpsIffAccNotZero : Obligations.JneJumpsIffAccNotZero := by
  intro x s
  have hexec : exec (.jne x) s = .next (branchIf (condNz s.acc) x s) := rfl
  have hnz := condNz_iff_toNat s.acc
  exact ⟨decode_packWord 0x6#4 x, _, hexec,
    fun hne => branchIf_pc_of_taken x s (hnz.mpr hne),
    fun hzero => branchIf_pc_of_not_taken x s (fun htaken => hnz.mp htaken hzero),
    branchIf_acc x s, exec_memRead hexec, exec_sameElsewhere_of_operand rfl hexec⟩

/-! ### A jump to its own index in run mode (R95, R118) -/

/-- An index of the store is the target of its own low 12 bits. -/
theorem jumpTarget_lowBits {i : Index} (h : i.toNat < 4096) : jumpTarget (i.extractLsb' 0 12) = i :=
  BitVec.eq_of_toNat_eq ((jumpTarget_toNat _).trans (lowBits_toNat h))

/-- The core is in run mode at a JUMP to its own index. -/
structure AtSelfJump (s : State) : Prop where
  not_halted : s.halted = false
  running : s.runmode = true
  pc_lt : s.pc.toNat < 4096
  fetched_eq : fetched s = some (.jump (s.pc.extractLsb' 0 12))

/-- What an idle edge makes of such a state: a step is performed, and it writes STARTED alone. -/
def afterSelfJump (s : State) : State := s.markStarted.setPulses true false false

section AtSelfJump
variable {s : State}

theorem AtSelfJump.stepsAt_idle (h : AtSelfJump s) : stepsAt Inputs.idle s = true := by
  simp [stepsAt, Inputs.idle, h.running, h.not_halted]

theorem AtSelfJump.performStep_eq (h : AtSelfJump s) : performStep s = .next s.markStarted := by
  rw [performStep_of_fetched h.fetched_eq, exec_jump, jumpTarget_lowBits h.pc_lt]
  rfl

/-- The step does not halt, so run mode goes on (R103). -/
theorem AtSelfJump.edge_idle (h : AtSelfJump s) : edge Inputs.idle s = .next (afterSelfJump s) := by
  have hrun : s.markStarted.setRunmode ((s.runmode || Inputs.idle.runReq) && !s.markStarted.halted) =
      s.markStarted := by
    simp [State.setRunmode, State.markStarted, h.running, h.not_halted]
  rw [edge_of_step h.stepsAt_idle h.performStep_eq, finishStep, hrun]
  rfl

/-- PC, IMEM and the run are as before, so the same jump is next. -/
theorem AtSelfJump.after (h : AtSelfJump s) : AtSelfJump (afterSelfJump s) where
  not_halted := h.not_halted
  running := h.running
  pc_lt := h.pc_lt
  fetched_eq := h.fetched_eq

/-- The first edge leaves a state that every further one leaves as it is. -/
theorem AtSelfJump.edges_idle (h : AtSelfJump s) (k : Nat) :
    edges (List.replicate (k + 1) Inputs.idle) s = .next (afterSelfJump s) := by
  induction k generalizing s with
  | zero => exact edges_cons h.edge_idle []
  | succ k ih => exact (edges_cons h.edge_idle _).trans (ih h.after)

/-- Every edge performs one step (R86). -/
theorem AtSelfJump.stepsSinceReset_idle (h : AtSelfJump s) (k n : Nat) :
    stepsSinceReset n (List.replicate k Inputs.idle) s = n + k := by
  induction k generalizing s n with
  | zero => rfl
  | succ k ih =>
    rw [List.replicate_succ, stepsSinceReset_cons h.edge_idle, if_neg (by decide), if_pos h.stepsAt_idle,
      ih h.after]
    omega

end AtSelfJump

/-- Settles O49: the state after the first edge is the one after every edge. -/
theorem selfJumpNeverHalts : Obligations.SelfJumpNeverHalts := by
  intro k s hhalted hrun hpc hfetch
  have h : AtSelfJump s := ⟨hhalted, hrun, hpc, hfetch⟩
  exact ⟨afterSelfJump s, h.edges_idle k, rfl, rfl, hhalted, hrun, rfl, fun _ => rfl,
    h.stepsSinceReset_idle (k + 1)⟩

end Sys2Proof.Machine

/-! ## STOP -/

namespace Sys2Proof.Machine

/-! ### The output pulses are outside the state vector (R13) -/

theorem State.sameVector_setPulses (st ce le : Bool) (s : State) : SameVector s (s.setPulses st ce le) := by
  constructor
  · constructor <;> rfl
  · rfl

/-- A step while halted changes no element of the state vector (R104). -/
theorem step_sameVector_of_halted {s : State} (h : s.halted = true) :
    ∃ t, step s = .next t ∧ SameVector s t :=
  ⟨_, step_of_halted h, s.sameVector_setPulses false true false⟩

/-! ### STOP (R98) -/

/-- Settles O16: STOP writes HALTED and FAULT, and a halted core performs no further step. -/
theorem stopHaltsWithoutFault : Obligations.StopHaltsWithoutFault := by
  refine ⟨fun x => decode_packWord 0x7#4 x, fun s => ?_⟩
  have hexec := exec_stop s
  have hhalted := s.haltWith_halted .noFault
  exact ⟨_, hexec, rfl, ⟨hhalted, rfl⟩, exec_memRead hexec, step_sameVector_of_halted hhalted⟩

end Sys2Proof.Machine

/-! ## The host interface family: when a step is performed, run mode, loading, observing

An edge without reset performs a step exactly where its output `stepped` says so; what it then does is said by
`edge_stepped`, `edge_of_halted`, `edge_of_accepted`, `edge_program` and `edge_loadErr`. -/

namespace Sys2Proof.Machine

/-! ### States with the same vector (R13) -/

theorem SameButRunmode.symm {s t : State} (h : SameButRunmode s t) : SameButRunmode t s where
  pc_eq := h.pc_eq.symm
  acc_eq := h.acc_eq.symm
  halted_eq := h.halted_eq.symm
  fault_eq := h.fault_eq.symm
  started_eq := h.started_eq.symm
  progLen_eq := h.progLen_eq.symm
  imem_eq := h.imem_eq.symm
  dmem_eq := h.dmem_eq.symm
  imemDraw_eq := h.imemDraw_eq.symm

theorem SameButRunmode.trans {s t u : State} (h : SameButRunmode s t) (h' : SameButRunmode t u) :
    SameButRunmode s u where
  pc_eq := h'.pc_eq.trans h.pc_eq
  acc_eq := h'.acc_eq.trans h.acc_eq
  halted_eq := h'.halted_eq.trans h.halted_eq
  fault_eq := h'.fault_eq.trans h.fault_eq
  started_eq := h'.started_eq.trans h.started_eq
  progLen_eq := h'.progLen_eq.trans h.progLen_eq
  imem_eq := h'.imem_eq.trans h.imem_eq
  dmem_eq := h'.dmem_eq.trans h.dmem_eq
  imemDraw_eq := h'.imemDraw_eq.trans h.imemDraw_eq

theorem SameVector.refl (s : State) : SameVector s s :=
  s.sameVector_setPulses s.stepped s.cmdErr s.loadErr

theorem SameVector.trans {s t u : State} (h : SameVector s t) (h' : SameVector t u) : SameVector s u :=
  ⟨h.toSameButRunmode.trans h'.toSameButRunmode, h'.runmode_eq.trans h.runmode_eq⟩

/-- RUNMODE and the output pulses are outside what `SameButRunmode` compares. -/
theorem State.sameButRunmode_bookkeeping (r st ce le : Bool) (s : State) :
    SameButRunmode s ((s.setRunmode r).setPulses st ce le) := by
  constructor <;> rfl

/-- Those four registers are all that it leaves out. -/
theorem SameButRunmode.eq_bookkeeping {s t : State} (h : SameButRunmode s t) :
    t = (s.setRunmode t.runmode).setPulses t.stepped t.cmdErr t.loadErr := by
  cases s
  cases t
  obtain ⟨rfl, rfl, rfl, rfl, rfl, rfl, rfl, rfl, rfl⟩ := h
  rfl

/-! ### A step reads neither RUNMODE nor the output pulses (R75, R103) -/

theorem datapathStep_bookkeeping (r st ce le : Bool) (s : State) :
    datapathStep ((s.setRunmode r).setPulses st ce le) =
      ((datapathStep s).setRunmode r).setPulses st ce le := rfl

/-- So states that are the same but for them go on to such states. -/
theorem sameButRunmode_performStep {s t : State} (h : SameButRunmode s t) :
    ∃ s' t', performStep s = .next s' ∧ performStep t = .next t' ∧ SameButRunmode s' t' := by
  refine ⟨_, _, datapathPerformsStep s, datapathPerformsStep t, ?_⟩
  rw [h.eq_bookkeeping, datapathStep_bookkeeping]
  exact State.sameButRunmode_bookkeeping _ _ _ _ _

theorem finishStep_sameButRunmode (inp : Inputs) (s u : State) : SameButRunmode u (finishStep inp s u) :=
  State.sameButRunmode_bookkeeping _ _ _ _ _

/-! ### Which edges perform a step (R102, R111) -/

section
variable {inp : Inputs} {s t : State}

theorem stepsAt_eq_true :
    stepsAt inp s = true ↔ inp.rst = false ∧ s.halted = false ∧
      (inp.stepReq = true ∨ inp.runReq = true ∨ s.runmode = true) := by
  simp only [stepsAt, Inputs.cmd, Bool.and_eq_true, Bool.or_eq_true, Bool.not_eq_true']
  tauto

theorem stepsAt_of_noCommand (hstep : inp.stepReq = false) (hrun : inp.runReq = false)
    (hmode : s.runmode = false) : stepsAt inp s = false := by
  simp [stepsAt, Inputs.cmd, hstep, hrun, hmode]

/-- `stepped` says whether the edge performed a step. -/
theorem edge_stepped (h : edge inp s = .next t) : t.stepped = stepsAt inp s := by
  rcases edge_inv h with ⟨hr, rfl⟩ | ⟨_, hs, _, _, rfl⟩ | ⟨_, hs, rfl⟩
  · simp [stepsAt, hr]
  · exact hs.symm
  · rw [hs, idleEdge_stepped]

theorem idleEdge_cmdErr (inp : Inputs) (s : State) : (idleEdge inp s).cmdErr = (inp.cmd && s.halted) := by
  unfold idleEdge
  split
  · split <;> rfl
  · rfl

/-- A step, performed while not halted only, writes 0 to `cmd_err`; any other edge without reset tests HALTED
(R104). -/
theorem edge_cmdErr (hr : inp.rst = false) (h : edge inp s = .next t) : t.cmdErr = (inp.cmd && s.halted) := by
  have hstepped := edge_stepped h
  rcases edge_inv_of_noReset hr h with ⟨hst, u, _, rfl⟩ | ⟨_, rfl⟩
  · rw [finishStep_cmdErr, stepsAt_not_halted (hstepped.symm.trans hst), Bool.and_false]
  · exact idleEdge_cmdErr inp s

/-- A halted core performs no step and is not READY, so an edge without reset changes the pulses only (R104,
R106). -/
theorem edge_of_halted (hr : inp.rst = false) (hh : s.halted = true) :
    edge inp s = .next (s.setPulses false inp.cmd inp.ld) := by
  have hidle : stepsAt inp s = false := by simp [stepsAt, hh]
  have hready : phase s ≠ .ready := by simp [phase_eq_ready, hh]
  rw [edge_of_idle hr hidle, idleEdge_not_ready hready, hh, Bool.and_true]

end

/-- Settles O31: every edge answers, and `step` is an edge. -/
theorem everyEdgeHasNextState : Obligations.EveryEdgeHasNextState :=
  ⟨edge_total, edge_total Inputs.step⟩

/-- Settles O45: `cmd_err` is set by a command that finds HALTED, and an edge of a halted core changes the
pulses only. -/
theorem commandWhileHaltedIsRefused : Obligations.CommandWhileHaltedIsRefused := by
  intro inp s t hr h
  have hiff : t.cmdErr = true ↔ s.halted = true ∧ (inp.stepReq = true ∨ inp.runReq = true) := by
    rw [edge_cmdErr hr h, Bool.and_eq_true, Inputs.cmd, Bool.or_eq_true, and_comm]
  refine ⟨hiff, fun herr => ?_⟩
  obtain ⟨hh, _⟩ := hiff.mp herr
  cases h.symm.trans (edge_of_halted hr hh)
  exact ⟨s.sameVector_setPulses _ _ _, rfl⟩

/-- Settles O50, by induction on the edges: each changes the output pulses only. -/
theorem haltedStateStaysUntilReset : Obligations.HaltedStateStaysUntilReset := by
  intro ins
  induction ins with
  | nil =>
    intro s t _ _ h
    cases h
    exact SameVector.refl s
  | cons inp rest ih =>
    intro s t hh hr h
    rw [List.forall_mem_cons] at hr
    obtain ⟨hr, hrest⟩ := hr
    rw [edges_cons (edge_of_halted hr hh)] at h
    exact (s.sameVector_setPulses false inp.cmd inp.ld).trans (ih _ t hh hrest h)

/-- Settles O46: the step an edge performs is `performStep`, with its bookkeeping; an edge without one writes
no register. -/
theorem stepPerformedExactlyWhenCommanded : Obligations.StepPerformedExactlyWhenCommanded := by
  intro inp s t h
  have hstepped := edge_stepped h
  refine ⟨by rw [hstepped, stepsAt_eq_true], fun hst => ?_, fun hst hr => ?_, fun n rest => ?_⟩
  · obtain ⟨u, hu, _⟩ := performStep_effect s
    cases h.symm.trans (edge_of_step (hstepped.symm.trans hst) hu)
    exact ⟨u, hu, finishStep_sameButRunmode inp s u⟩
  · cases h.symm.trans (edge_of_idle hr (hstepped.symm.trans hst))
    obtain ⟨hpc, hacc, hhalted, hfault, hstarted, hrunmode, _⟩ := idleEdge_registers inp s
    exact ⟨hpc, hacc, hhalted, hfault, hstarted, hrunmode⟩
  · rw [stepsSinceReset_cons h, hstepped]

/-! ### Loads: the program after an edge, and `load_err` (R106 to R109) -/

/-- PROG_LEN and IMEM are the same, the unspecified words included. -/
structure SameProgram (s t : State) : Prop where
  progLen_eq : t.progLen = s.progLen
  imem_eq : t.imem = s.imem
  imemDraw_eq : t.imemDraw = s.imemDraw

theorem SameProgram.imemRead_eq {s t : State} (h : SameProgram s t) (i : BitVec 12) :
    imemRead i t = imemRead i s :=
  imemRead_congr h.imem_eq h.imemDraw_eq i

theorem SameProgram.setPulses {s t : State} (h : SameProgram s t) (st ce le : Bool) :
    SameProgram s (t.setPulses st ce le) :=
  ⟨h.progLen_eq, h.imem_eq, h.imemDraw_eq⟩

theorem performStep_sameProgram {s u : State} (h : performStep s = .next u) : SameProgram s u :=
  have he := performStep_next_effect h
  ⟨he.progLen_eq, he.imem_eq, he.imemDraw_eq⟩

theorem acceptData_sameProgram (inp : Inputs) (s : State) : SameProgram s (acceptData inp s) := by
  unfold acceptData
  split <;> exact ⟨rfl, rfl, rfl⟩

section
variable {inp : Inputs} {s t : State}

theorem acceptPush_of_full (h : 4096 ≤ s.progLen.toNat) : acceptPush inp s = s := by
  simp [acceptPush, h]

theorem acceptPush_of_room (hp : inp.imemPush = true) (h : s.progLen.toNat < 4096) :
    acceptPush inp s = pushWord inp.imemWdata s := by
  simp [acceptPush, hp, h]

theorem Inputs.ld_eq_true : inp.ld = true ↔ inp.imemPush = true ∨ inp.dmemLoadWe = true := by
  simp [Inputs.ld]

/-- In READY an edge without a step accepts its loads; with none, that is nothing. -/
theorem idleEdge_of_ready (h : phase s = .ready) :
    idleEdge inp s = (acceptData inp (acceptPush inp s)).setPulses false false
      (inp.imemPush && decide (s.progLen.toNat = 4096)) := by
  obtain ⟨hh, _⟩ := phase_eq_ready.mp h
  cases hld : inp.ld with
  | true => simp [idleEdge, hld, h, hh]
  | false =>
    obtain ⟨hpush, hdata⟩ : inp.imemPush = false ∧ inp.dmemLoadWe = false := by
      simpa [Inputs.ld] using hld
    simp [idleEdge, hld, hh, acceptData, acceptPush, hpush, hdata]

/-- The accepted edge: READY, no command and no run in progress. -/
theorem edge_of_accepted (hr : inp.rst = false) (hstep : inp.stepReq = false) (hrun : inp.runReq = false)
    (hmode : s.runmode = false) (hh : s.halted = false) (hst : s.started = false) :
    edge inp s = .next ((acceptData inp (acceptPush inp s)).setPulses false false
      (inp.imemPush && decide (s.progLen.toNat = 4096))) := by
  have hready : phase s = .ready := phase_eq_ready.mpr ⟨hh, hst⟩
  rw [edge_of_idle hr (stepsAt_of_noCommand hstep hrun hmode), idleEdge_of_ready hready]

/-- An edge without reset keeps the program, or pushes one word with room for it in READY (R107). -/
theorem edge_program (hr : inp.rst = false) (h : edge inp s = .next t) :
    SameProgram s t ∨ (inp.imemPush = true ∧ phase s = .ready ∧ t.stepped = false ∧
      s.progLen.toNat < 4096 ∧ SameProgram (pushWord inp.imemWdata s) t) := by
  rcases edge_inv_of_noReset hr h with ⟨_, u, hu, rfl⟩ | ⟨hst, rfl⟩
  · have hsame := performStep_sameProgram hu
    exact .inl ⟨hsame.progLen_eq, hsame.imem_eq, hsame.imemDraw_eq⟩
  · by_cases hready : phase s = .ready
    · have hacc := acceptData_sameProgram inp (acceptPush inp s)
      rw [idleEdge_of_ready hready] at hst ⊢
      by_cases hpush : inp.imemPush = true ∧ s.progLen.toNat < 4096
      · obtain ⟨hp, hroom⟩ := hpush
        rw [acceptPush_of_room hp hroom] at hacc ⊢
        exact .inr ⟨hp, hready, rfl, hroom, hacc.setPulses _ _ _⟩
      · have hkeep : acceptPush inp s = s := by simp [acceptPush, hpush]
        rw [hkeep] at hacc ⊢
        exact .inl (hacc.setPulses _ _ _)
    · rw [idleEdge_not_ready hready]
      exact .inl ⟨rfl, rfl, rfl⟩

end

/-- Settles O42: `edge_of_accepted` for the push itself, `edge_program` for every other edge. -/
theorem pushAppendsWordAtProgLen : Obligations.PushAppendsWordAtProgLen := by
  refine ⟨fun inp s t hr hstep hrun hmode hh hst hpush h => ?_, fun inp s t hr h => ?_⟩
  · cases h.symm.trans (edge_of_accepted hr hstep hrun hmode hh hst)
    have hacc := acceptData_sameProgram inp (acceptPush inp s)
    refine ⟨fun hroom => ?_, fun hfull => ?_⟩
    · rw [acceptPush_of_room hpush hroom] at hacc ⊢
      refine ⟨?_, ?_, by simp [hroom.ne]⟩
      · exact (hacc.imemRead_eq _).trans ((imemRead_pushWord _ _ _).trans (if_pos rfl))
      · rw [State.setPulses_progLen, hacc.progLen_eq, pushWord_progLen, index_succ_toNat hroom]
    · rw [acceptPush_of_full hfull.ge] at hacc ⊢
      exact ⟨hacc.progLen_eq, hacc.imemRead_eq, by simp [hpush, hfull]⟩
  · rcases edge_program hr h with hsame | ⟨hpush, hready, hst, hroom, hpushed⟩
    · exact ⟨fun _ => ⟨hsame.progLen_eq, hsame.imemRead_eq⟩, by rw [hsame.progLen_eq],
        fun i _ => hsame.imemRead_eq i⟩
    · refine ⟨?_, ?_, fun i hi => ?_⟩
      · rintro (hno | hno | hno | hno)
        · exact absurd (hno.symm.trans hpush) Bool.false_ne_true
        · exact absurd hready hno
        · exact absurd (hst.symm.trans hno) Bool.false_ne_true
        · omega
      · rw [hpushed.progLen_eq, pushWord_progLen, index_succ_toNat hroom]
        omega
      · have hne : i ≠ s.progLen.extractLsb' 0 12 := fun heq => hi (heq ▸ lowBits_toNat hroom)
        rw [hpushed.imemRead_eq, imemRead_pushWord, if_neg hne]

/-- Settles O43: the data load is accepted after the push, which does not depend on it. -/
theorem dataLoadWritesOneCell : Obligations.DataLoadWritesOneCell := by
  intro inp s t hr hstep hrun hmode hh hst hdata h
  have hread := edge_memRead h
  have hwrite : dataWrite inp s = some (inp.dmemLoadAddr, inp.dmemLoadData) := by
    simp [dataWrite, stepsAt_of_noCommand hstep hrun hmode, hdata, phase_eq_ready, hh, hst]
  rw [hr, hwrite] at hread
  have hprogram := acceptData_sameProgram inp (acceptPush inp s)
  cases h.symm.trans (edge_of_accepted hr hstep hrun hmode hh hst)
  exact ⟨by simp [hread, cellAfter], fun a hne => by simp [hread, cellAfter, hne.symm], _,
    edge_of_accepted hr hstep hrun hmode hh hst, hprogram.progLen_eq, hprogram.imem_eq⟩

/-- The same inputs without the loads. -/
def Inputs.withoutLoads (inp : Inputs) : Inputs := { inp with imemPush := false, dmemLoadWe := false }

/-- Loads command no step (R102). -/
theorem stepsAt_withoutLoads (inp : Inputs) (s : State) : stepsAt inp.withoutLoads s = stepsAt inp s := rfl

section
variable {inp : Inputs} {s t : State}

/-- Refused loads change nothing but `load_err` (R109, R110). -/
theorem edge_withoutLoads (hr : inp.rst = false) (h : edge inp s = .next t)
    (href : phase s ≠ .ready ∨ t.stepped = true) :
    ∃ u, edge inp.withoutLoads s = .next u ∧ SameVector u t := by
  have hsteps : t.stepped = stepsAt inp.withoutLoads s := by rw [edge_stepped h, stepsAt_withoutLoads]
  rcases edge_inv_of_noReset hr h with ⟨hst, u, hu, rfl⟩ | ⟨hst, rfl⟩
  · exact ⟨_, edge_of_step (hsteps.symm.trans hst) hu,
      (finishStep inp.withoutLoads s u).sameVector_setPulses true false inp.ld⟩
  · have hready : phase s ≠ .ready := href.resolve_right (by simp [hst])
    refine ⟨_, edge_of_idle hr (hsteps.symm.trans hst), ?_⟩
    rw [idleEdge_not_ready hready, idleEdge_not_ready hready]
    exact State.sameVector_setPulses _ _ _ _

/-- `load_err` at an edge without reset: every load is refused with a step and out of READY; in READY a push
into a full store is (R109). -/
theorem edge_loadErr (hr : inp.rst = false) (h : edge inp s = .next t) :
    t.loadErr = if t.stepped = true ∨ phase s ≠ .ready then inp.ld
      else inp.imemPush && decide (s.progLen.toNat = 4096) := by
  rcases edge_inv_of_noReset hr h with ⟨hst, u, _, rfl⟩ | ⟨hst, rfl⟩
  · simp
  · rw [hst]
    by_cases hready : phase s = .ready
    · simp [idleEdge_of_ready hready, hready]
    · simp [idleEdge_not_ready hready, hready]

end

/-- Settles O44: `edge_loadErr`, `edge_withoutLoads`, and a full store has no room for a push. -/
theorem loadErrExactlyWhenRefused : Obligations.LoadErrExactlyWhenRefused := by
  intro inp s t hr h
  refine ⟨?_, edge_withoutLoads hr h, fun ⟨_, hfull⟩ => ?_, fun ⟨_, _, hready, hst, hdata⟩ => ?_⟩
  · rw [edge_loadErr hr h]
    split
    · rw [Inputs.ld_eq_true]
      tauto
    · rw [Bool.and_eq_true, decide_eq_true_eq]
      tauto
  · rcases edge_program hr h with hsame | ⟨_, _, _, hroom, _⟩
    · exact ⟨hsame.progLen_eq, hsame.imem_eq⟩
    · omega
  · rw [edge_stepped h] at hst
    simp [edge_memRead h, hr, dataWrite, hst, hready, hdata, cellAfter]

/-! ### Observing (R113, R114) -/

theorem debugReadout_cons {inp : Inputs} {s t : State} (h : edge inp s = .next t) (rest : List Inputs) :
    debugReadout (inp :: rest) s = memRead inp.dbgAddr s :: debugReadout rest t := by
  rw [debugReadout, h]
  rfl

/-- Over edges that write no cell and perform no step, each readout shows the memory of the first state. -/
theorem debugReadout_eq {ins : List Inputs} {s : State} (hmode : s.runmode = false)
    (hquiet : ∀ inp ∈ ins,
      inp.rst = false ∧ inp.stepReq = false ∧ inp.runReq = false ∧ inp.dmemLoadWe = false) :
    debugReadout ins s = ins.map fun inp => memRead inp.dbgAddr s := by
  induction ins generalizing s with
  | nil => rfl
  | cons inp rest ih =>
    rw [List.forall_mem_cons] at hquiet
    obtain ⟨⟨hr, hstep, hrun, hdata⟩, hrest⟩ := hquiet
    have h := edge_of_idle hr (stepsAt_of_noCommand hstep hrun hmode)
    have hmode' : (idleEdge inp s).runmode = false := by
      obtain ⟨_, _, _, _, _, hrunmode, _⟩ := idleEdge_registers inp s
      rw [hrunmode, hmode]
    have hread (a : DataAddr) : memRead a (idleEdge inp s) = memRead a s := by
      simp [idleEdge_memRead, hdata, cellAfter]
    simp only [debugReadout_cons h, ih hmode' hrest, hread, List.map_cons]

theorem snapshot_memory (a : DataAddr) (s : State) : (snapshot s).memory[a.toNat]? = some (memRead a s) := by
  have ha : a.toNat < 4096 := a.isLt
  simp [snapshot, ha]

/-- Settles O52: no edge of the readout changes a cell, and the snapshot is indexed by the address. -/
theorem readoutBetweenStepsIsConsistent : Obligations.ReadoutBetweenStepsIsConsistent :=
  fun _ s hmode hquiet => ⟨debugReadout_eq hmode hquiet, fun a => snapshot_memory a s⟩

/-! ### The end of a run (R116) -/

/-- The three ends of a run, told apart by FAULT and by what stands at PC. -/
def EndOfRun (t : State) : Prop :=
  (runEnd t = some (.stopAt t.pc) ∧ EndedNormally t ∧ t.pc.toNat < t.progLen.toNat ∧
    (imemRead (t.pc.extractLsb' 0 12) t).toNat / 4096 = 7) ∨
  (runEnd t = some (.invalidPcAt t.pc) ∧ EndedByFault t ∧ t.progLen.toNat ≤ t.pc.toNat) ∨
  (runEnd t = some (.illegalOpcodeAt t.pc) ∧ EndedByFault t ∧ t.pc.toNat < t.progLen.toNat ∧
    8 ≤ (imemRead (t.pc.extractLsb' 0 12) t).toNat / 4096)

/-- A step that halts ends the run: it is one of the three halting cases (R83), and PC and the program are
those of the state before it (R84). -/
theorem endOfRun_of_step {s t : State} (hh : s.halted = false) (h : step s = .next t) (ht : t.halted = true) :
    EndOfRun t := by
  obtain ⟨hcases, hstop, hinvalid, hillegal, _⟩ := stepHaltsInExactlyThreeCases s t hh h
  obtain ⟨himem, hprogLen, hdraw, _, _, _, _, _, hpc, _⟩ := stepFrame s t hh h
  have hword (i : BitVec 12) : imemRead i t = imemRead i s := imemRead_congr himem hdraw i
  unfold EndOfRun EndedNormally EndedByFault
  rw [hpc ht, hword, hprogLen]
  rcases hcases.mp ht with hout | ⟨hin, hop⟩ | ⟨hin, hop⟩
  · have hf := hinvalid hout
    exact .inr (.inl ⟨by simp [runEnd, ht, hf, hpc ht], ⟨ht, by simp [hf]⟩, Nat.le_of_not_lt hout⟩)
  · have hf := hstop ⟨hin, hop⟩
    exact .inl ⟨by simp [runEnd, ht, hf, hpc ht], ⟨ht, hf⟩, hin, hop⟩
  · have hf := hillegal ⟨hin, hop⟩
    exact .inr (.inr ⟨by simp [runEnd, ht, hf, hpc ht], ⟨ht, by simp [hf]⟩, hin, hop⟩)

/-- An end of a run is told by the state vector but for RUNMODE. -/
theorem EndOfRun.congr {s t : State} (h : SameButRunmode s t) (hs : EndOfRun s) : EndOfRun t := by
  rw [h.eq_bookkeeping]
  exact hs

/-- So an edge that halts a running core ends the run, whatever commands the step. -/
theorem endOfRun_of_edge {inp : Inputs} {s t : State} (hr : inp.rst = false) (hh : s.halted = false)
    (h : edge inp s = .next t) (ht : t.halted = true) : EndOfRun t := by
  rcases edge_inv_of_noReset hr h with ⟨_, u, hu, rfl⟩ | ⟨_, rfl⟩
  · have hstep : step s = .next (finishStep Inputs.step s u) := edge_of_step (by simp [hh]) hu
    exact (endOfRun_of_step hh hstep ht).congr (State.sameButRunmode_bookkeeping _ _ _ _ _)
  · obtain ⟨_, _, hhalted, _⟩ := idleEdge_registers inp s
    exact absurd ((hhalted.trans hh).symm.trans ht) Bool.false_ne_true

/-- Waiting stops at the first edge after which HALTED is 1. -/
theorem endOfRun_of_waitHalted {k : Nat} {s t : State} (hs : s.halted = true → EndOfRun s)
    (h : waitHalted k s = .next t) (ht : t.halted = true) : EndOfRun t := by
  induction k generalizing s with
  | zero =>
    cases h
    exact hs ht
  | succ k ih =>
    rw [waitHalted] at h
    split at h
    · cases h
      exact hs ht
    · rename_i hh
      obtain ⟨u, hu⟩ := edge_total Inputs.idle s
      rw [hu, thenDo_next] at h
      exact ih (endOfRun_of_edge rfl (Bool.eq_false_iff.mpr hh) hu) h

/-- Settles O53: the edge that halted the run is the first one or one of those waited for. -/
theorem runEndsAtStopOrFault : Obligations.RunEndsAtStopOrFault := by
  intro k s t hh h ht
  obtain ⟨u, hu⟩ := edge_total Inputs.run s
  rw [hostRun, hu, thenDo_next] at h
  exact endOfRun_of_waitHalted (endOfRun_of_edge rfl hh hu) h ht

/-! ### A run and single stepping (R103, R132, R86) -/

theorem idleEdge_sameButRunmode_of_noLoad {inp : Inputs} (hld : inp.ld = false) (s : State) :
    SameButRunmode s (idleEdge inp s) := by
  rw [idleEdge, hld]
  exact State.sameButRunmode_bookkeeping s.runmode _ _ _ s

/-- Edges without reset and load that both perform a step, or both none, keep states the same. -/
theorem sameButRunmode_edge {inp inp' : Inputs} {s t : State} (h : SameButRunmode s t) (hr : inp.rst = false)
    (hr' : inp'.rst = false) (hld : inp.ld = false) (hld' : inp'.ld = false)
    (hsteps : stepsAt inp s = stepsAt inp' t) :
    ∃ s' t', edge inp s = .next s' ∧ edge inp' t = .next t' ∧ SameButRunmode s' t' := by
  cases hs : stepsAt inp s with
  | true =>
    obtain ⟨u, v, hu, hv, huv⟩ := sameButRunmode_performStep h
    exact ⟨_, _, edge_of_step hs hu, edge_of_step (hsteps ▸ hs) hv,
      (finishStep_sameButRunmode inp s u).symm.trans (huv.trans (finishStep_sameButRunmode inp' t v))⟩
  | false =>
    exact ⟨_, _, edge_of_idle hr hs, edge_of_idle hr' (hsteps ▸ hs),
      (idleEdge_sameButRunmode_of_noLoad hld s).symm.trans
        (h.trans (idleEdge_sameButRunmode_of_noLoad hld' t))⟩

/-- An edge of a run, whether it begins it or finds it in progress, leaves RUNMODE 1 unless its step halted. -/
theorem edge_runmode_of_run {inp : Inputs} {s t : State} (hr : inp.rst = false) (hh : s.halted = false)
    (hrun : s.runmode = true ∨ inp.runReq = true) (h : edge inp s = .next t) : t.runmode = !t.halted := by
  have hs : stepsAt inp s = true := by
    rw [stepsAt_eq_true]
    tauto
  obtain ⟨u, hu, _⟩ := performStep_effect s
  cases h.symm.trans (edge_of_step hs hu)
  have hgo : (s.runmode || inp.runReq) = true := by rwa [Bool.or_eq_true]
  rw [finishStep_runmode, hgo, Bool.true_and, finishStep_halted]

/-- While the host waits, RUNMODE stays 1 exactly until the run halts. -/
theorem edges_idle_runmode {k : Nat} {s t : State} (hs : s.runmode = !s.halted)
    (h : edges (List.replicate k Inputs.idle) s = .next t) : t.runmode = !t.halted := by
  induction k generalizing s with
  | zero =>
    cases h
    exact hs
  | succ k ih =>
    obtain ⟨u, hu⟩ := edge_total Inputs.idle s
    rw [List.replicate_succ, edges_cons hu] at h
    refine ih ?_ h
    cases hh : s.halted with
    | true =>
      cases hu.symm.trans (edge_of_halted rfl hh)
      exact hs
    | false => exact edge_runmode_of_run rfl hh (.inl (by rw [hs, hh, Bool.not_false])) hu

/-- A run has come to the state single stepping has come to, and is in progress unless it has halted. -/
structure RunAlongside (t u : State) : Prop where
  same : SameButRunmode t u
  running : t.halted = false → t.runmode = true

/-- An edge of the run and a `step_req` edge keep the two alongside, both with a step or both without. -/
theorem runAlongside_of_edge {inp : Inputs} {t u : State} (h : SameButRunmode t u)
    (hr : inp.rst = false) (hld : inp.ld = false)
    (hrun : t.halted = false → t.runmode = true ∨ inp.runReq = true) :
    stepsAt inp t = stepsAt Inputs.step u ∧
      ∃ t' u', edge inp t = .next t' ∧ edge Inputs.step u = .next u' ∧ RunAlongside t' u' := by
  have hsteps : stepsAt inp t = stepsAt Inputs.step u := by
    rw [Bool.eq_iff_iff, stepsAt_eq_true, stepsAt_step, h.halted_eq, Bool.not_eq_true']
    tauto
  obtain ⟨t', u', ht, hu, hsame⟩ := sameButRunmode_edge h hr rfl hld rfl hsteps
  refine ⟨hsteps, t', u', ht, hu, hsame, fun hh' => ?_⟩
  have hh : t.halted = false := by
    by_contra hh
    cases ht.symm.trans (edge_of_halted hr (Bool.not_eq_false _ ▸ hh))
    exact hh hh'
  rw [edge_runmode_of_run hr hh (hrun hh) ht, hh', Bool.not_false]

/-- Waiting for the run and single stepping come to the same state, with the same number of steps. -/
theorem edges_of_runAlongside {t u : State} (h : RunAlongside t u) (k : Nat) :
    ∃ t' u', edges (List.replicate k Inputs.idle) t = .next t' ∧
      edges (List.replicate k Inputs.step) u = .next u' ∧ SameButRunmode t' u' ∧
      ∀ n : Nat, stepsSinceReset n (List.replicate k Inputs.idle) t =
        stepsSinceReset n (List.replicate k Inputs.step) u := by
  induction k generalizing t u with
  | zero => exact ⟨t, u, rfl, rfl, h.same, fun _ => rfl⟩
  | succ k ih =>
    obtain ⟨hsteps, t₁, u₁, ht, hu, h₁⟩ :=
      runAlongside_of_edge (inp := Inputs.idle) h.same rfl rfl fun hh => .inl (h.running hh)
    obtain ⟨t', u', ht', hu', hsame, hcount⟩ := ih h₁
    refine ⟨t', u', (edges_cons ht _).trans ht', (edges_cons hu _).trans hu', hsame, fun n => ?_⟩
    rw [List.replicate_succ, List.replicate_succ, stepsSinceReset_cons ht, stepsSinceReset_cons hu, hsteps]
    exact hcount _

/-- Settles O48: the `run_req` edge and the first `step_req` edge begin alongside, and what follows keeps so. -/
theorem runEqualsSingleStepping : Obligations.RunEqualsSingleStepping := by
  intro k s
  obtain ⟨hsteps, t₁, u₁, ht, hu, h₁⟩ :=
    runAlongside_of_edge (inp := Inputs.run) (SameVector.refl s).toSameButRunmode rfl rfl fun _ => .inr rfl
  obtain ⟨t, u, ht', hu', hsame, hcount⟩ := edges_of_runAlongside h₁ k
  refine ⟨t, u, (edges_cons ht _).trans ht', (edges_cons hu _).trans hu', hsame, fun hh => ?_, fun n => ?_⟩
  · exact edges_idle_runmode (edge_runmode_of_run rfl hh (.inr rfl) ht) ht'
  · rw [List.replicate_succ, stepsSinceReset_cons ht, stepsSinceReset_cons hu, hsteps]
    exact hcount _

end Sys2Proof.Machine

/-! ## The exceptions family: a step that halts, and the fault of an illegal word -/

namespace Sys2Proof.Machine

/-- Halting is the one effect that sets HALTED, so it is all that an effect which set it has done. -/
theorem Effect.eq_haltWith_of_halted {s t : State} (h : Effect s t) (hs : s.halted = false)
    (ht : t.halted = true) : t = s.haltWith t.fault := by
  cases h with
  | halt c => rfl
  | acc v | cell a | goOn | jump x => exact absurd (hs.symm.trans ht) Bool.false_ne_true

/-- A step that halts, by STOP or by a fault, writes HALTED, FAULT, STARTED, RUNMODE and the outputs of the
edge only (R98, R120, R121). -/
theorem step_eq_of_halts {s t : State} (hh : s.halted = false) (h : step s = .next t) (ht : t.halted = true) :
    t = { s with halted := true, fault := t.fault, started := true, runmode := false,
                 stepped := true, cmdErr := false, loadErr := false } := by
  obtain ⟨u, hu, rfl⟩ := step_inv_of_running hh h
  have hhalt : u = s.markStarted.haltWith u.fault :=
    (performStep_next_effect hu).eq_haltWith_of_halted hh ht
  rw [finishStep_step_fields, hhalt, State.haltWith_halted, Bool.not_true, Bool.and_false]
  rfl

/-- Settles O21: an opcode above STOP's makes no data access, and its step halts with ILLEGAL_OPCODE. -/
theorem illegalWordHaltsStep : Obligations.IllegalWordHaltsStep := by
  intro s hh hin hword
  have hop : 8 ≤ (ifetch s).toNat / 4096 := (Nat.le_div_iff_mul_le (by decide)).mpr hword
  obtain ⟨hre, hwe, _⟩ := dataSignals_of_noAccess (fetched_of_inProgram hin) (le_trans (by decide) hop)
  obtain ⟨t, ht⟩ : ∃ t, step s = .next t := edge_total Inputs.step s
  obtain ⟨hhalt, hfault⟩ := step_illegal hh ht hin hop
  exact ⟨hre, hwe, by rw [ht, step_eq_of_halts hh ht hhalt, hfault]⟩

/-- Settles O24: a fault halts, and a step that halts is precise. -/
theorem faultIsPrecise : Obligations.FaultIsPrecise :=
  fun _ _ hh h ⟨hhalt, _⟩ => step_eq_of_halts hh h hhalt

end Sys2Proof.Machine

/-! ## The reset and hazards family: what a reset sets, what only a reset clears, and a STORE before a read -/

namespace Sys2Proof.Machine

/-! ### Reset (R134, R135) -/

/-- Once STARTED, an edge without reset keeps the program: a push is accepted in READY only (R106). -/
theorem edge_sameProgram_of_started {inp : Inputs} {s t : State} (hr : inp.rst = false)
    (hst : s.started = true) (h : edge inp s = .next t) : SameProgram s t := by
  rcases edge_program hr h with hsame | ⟨_, hready, _⟩
  · exact hsame
  · exact absurd hready (phase_ne_ready_of_started hst)

/-- Settles O3: the reset edge by the reset values, with neither memory listing anything; an edge without reset
by what it may do to a halted core and to a started program. -/
theorem resetEdgeSetsEveryElement : Obligations.ResetEdgeSetsEveryElement := by
  refine ⟨fun inp s hr => ?_, fun inp s t hr h => ⟨fun hh => ?_, fun hst => ?_⟩⟩
  · exact ⟨_, edge_of_rst hr, rfl, rfl, rfl, rfl, rfl, rfl, rfl, Memory.read_nil, fun _ => rfl, rfl, rfl, rfl,
      rfl⟩
  · cases h.symm.trans (edge_of_halted hr hh)
    exact hh
  · have hsame := edge_sameProgram_of_started hr hst h
    exact ⟨hsame.progLen_eq, hsame.imemRead_eq⟩

/-! ### A step that runs a given instruction (R75, R100) -/

section
variable {s t u : State} {x : Operand} (hh : s.halted = false) (ht : step s = .next t)
include hh ht

/-- A performed step leaves what the fetched instruction leaves, with the edge's bookkeeping. -/
theorem step_eq_of_exec {i : Instr} (hf : fetched s = some i) (hu : exec i s.markStarted = .next u) :
    t = finishStep Inputs.step s u := by
  cases ht.symm.trans (edge_of_step (by simp [hh]) ((performStep_of_fetched hf).trans hu))
  rfl

theorem step_acc_of_load (hf : fetched s = some (.load x)) : t.acc = memRead x s := by
  rw [step_eq_of_exec hh ht hf (exec_load _ _)]
  rfl

theorem step_acc_of_add (hf : fetched s = some (.add x)) : t.acc = s.acc + memRead x s := by
  rw [step_eq_of_exec hh ht hf (exec_add _ _)]
  exact alu_add_eq _ _

theorem step_acc_of_sub (hf : fetched s = some (.sub x)) : t.acc = s.acc - memRead x s := by
  rw [step_eq_of_exec hh ht hf (exec_sub _ _)]
  exact alu_sub_eq _ _

/-- After a STORE the core runs on with ACC, which the cell now holds too. -/
theorem step_store (hf : fetched s = some (.store x)) :
    t.halted = false ∧ t.acc = s.acc ∧ memRead x t = s.acc := by
  rw [step_eq_of_exec hh ht hf (exec_store _ _)]
  have hread : memRead x (memWrite x s.acc s.markStarted) = s.acc :=
    (memRead_memWrite _ _ _ _).trans (if_pos rfl)
  exact ⟨hh, rfl, hread⟩

end

/-! ### A STORE and the step after it (R44, R47, R141) -/

/-- Settles O40: no step writes IMEM; after the STORE both ACC and the cell hold the stored value, which the next
step copies, doubles or takes from itself. -/
theorem storeIsSeenByNextReadAndNoFetch : Obligations.StoreIsSeenByNextReadAndNoFetch := by
  intro s t u x hh hf ht
  obtain ⟨himem, _, hdraw, _⟩ := stepFrame s t hh ht
  obtain ⟨hgo, hacc, hcell⟩ := step_store hh ht hf
  refine ⟨imemRead_congr himem hdraw, fun hu => ⟨fun hload => ?_, fun hadd => ?_, fun hsub => ?_⟩⟩
  · rw [step_acc_of_load hgo hu hload, hcell]
  · rw [step_acc_of_add hgo hu hadd, hacc, hcell]
  · rw [step_acc_of_sub hgo hu hsub, hacc, hcell, BitVec.sub_self]

end Sys2Proof.Machine

/-! ## The placing of one word (log entry 12) -/

namespace Sys2Proof.Machine

section
variable (s : State) (nbits w : Nat)

/-- The placed word is inside the store: a PC above it has become 0 (R31). -/
theorem State.withFetchWord_pc_lt : (s.withFetchWord nbits w).pc.toNat < 4096 := by
  simp only [State.withFetchWord]
  split
  · assumption
  · decide

theorem State.withFetchWord_progLen :
    (s.withFetchWord nbits w).progLen =
      if (s.withFetchWord nbits w).pc.toNat < s.progLen.toNat then s.progLen
      else (s.withFetchWord nbits w).pc + 1#13 := rfl

/-- PROG_LEN is past the placed word: PC + 1 is at most 4096, so it does not wrap (R26). -/
theorem State.withFetchWord_pc_lt_progLen :
    (s.withFetchWord nbits w).pc.toNat < (s.withFetchWord nbits w).progLen.toNat := by
  rw [State.withFetchWord_progLen]
  split
  · assumption
  · rw [index_succ_toNat (s.withFetchWord_pc_lt nbits w)]
    omega

theorem State.withFetchWord_imem :
    (s.withFetchWord nbits w).imem =
      Cells.insert (s.withFetchWord nbits w).pc.toNat (BitVec.ofNat 16 (w % 2 ^ nbits)) s.imem := rfl

/-- The placed word is listed at `PC[11:0]`, where a fetch addresses IMEM (R77). -/
theorem ifetch_withFetchWord :
    ifetch (s.withFetchWord nbits w) = BitVec.ofNat 16 (w % 2 ^ nbits) := by
  have haddr : (imemAddr (s.withFetchWord nbits w)).toNat = (s.withFetchWord nbits w).pc.toNat :=
    lowBits_toNat (s.withFetchWord_pc_lt nbits w)
  rw [ifetch, imemRead, haddr, State.withFetchWord_imem, Cells.lookup_insert, if_pos rfl,
    Option.getD_some]

theorem fetched_withFetchWord :
    fetched (s.withFetchWord nbits w) = some (decode (BitVec.ofNat 16 (w % 2 ^ nbits))) := by
  rw [fetched_of_inProgram (s.withFetchWord_pc_lt_progLen nbits w), ifetch_withFetchWord]

end

/-- A 16-bit word is the word of its own 16 bits. -/
theorem ofNat_toNat_mod (w : InstrWord) : BitVec.ofNat 16 (w.toNat % 2 ^ 16) = w := by
  rw [BitVec.toNat_mod_cancel, BitVec.ofNat_toNat, BitVec.setWidth_eq]

theorem decodeTableWord_toNat (w : InstrWord) : decodeTableWord 16 w.toNat = some (decode w) := by
  rw [decodeTableWord, decodeBits, if_pos le_rfl, ofNat_toNat_mod]

/-- Settles O34: the range check passes and the fetch finds the placed word; HALTED is cleared, and ACC and data
memory are no part of the placing. -/
theorem placedWordIsFetchedNext : Obligations.PlacedWordIsFetchedNext := by
  intro s w
  have hfetched : fetched (s.withFetchWord 16 w.toNat) = some (decode w) := by
    rw [fetched_withFetchWord, ofNat_toNat_mod]
  exact ⟨hfetched, decodeTableWord_toNat w, rfl, rfl, memRead_congr rfl⟩

end Sys2Proof.Machine
